-- ==== Sys2Proof/Word.lean ====
section
/-! DEFINITION. The datum of CORE (`00_scope.md` R6, `10_state.md` R11): one 64-bit signed integer, the narrowing
`wrap64`, the addressing modes of a parameter and a parameter itself (`10_state.md` R20, `30_encoding.md` R54). -/

namespace Sys2Proof

/-- R6: a cell, the program counter and the relative base each hold one 64-bit signed integer, in two's complement.
`BitVec.toInt` is its value in `i64`. -/
abbrev Word := BitVec 64

/-- R6: the unique member of `i64` congruent to `v` modulo 2^64. -/
def wrap64 (v : Int) : Word := BitVec.ofInt 64 v

/-- `30_encoding.md` R54: the three addressing modes of a parameter. -/
inductive Mode where
  | position
  | immediate
  | relative
deriving DecidableEq, Repr

/-- `40_step_and_operands.md` R73: a parameter is the pair of its raw value and its mode. -/
structure Param where
  mode : Mode
  raw : Word
deriving DecidableEq, Repr

end Sys2Proof
end

