-- ==== Sys2Proof/Config.lean ====
section
/-! DEFINITION. What is fixed for the machine (`00_scope.md` R5). The spec leaves no value open within a run
(`93_implementation_defined.md`, end of section 1), so there is no free value here. DENSE_LEN is the length of the
image the machine was constructed with and stands in State (`Memory.dense`). DENSE_CAP, OVERLAY_CAP and STEP_LIMIT
have no bound in the model (log 12). -/

namespace Sys2Proof.Config

/-- R5 ADDR_RANGE, `20_memory.md` R30: the legal addresses are the natural numbers below this one. -/
def addrLimit : Nat := 2 ^ 63

/-- `10_state.md` R14: what an address that is in neither store reads as. -/
def unlisted : Word := 0

/-- `20_memory.md` R40, `70_reset_and_hazards.md` R160: the entry point, which cannot be configured. -/
def entryPoint : Word := 0

/-- `10_state.md` R16: the value of the relative base after construction. -/
def initialRelativeBase : Word := 0

end Sys2Proof.Config
end

