-- ==== Sys2Proof/Machine/State.lean ====
section
/-! DEFINITION. The state of CORE (`10_state.md`), the reasons of its outcomes, and the state after construction of the
empty image (`10_state.md` R22, `70_reset_and_hazards.md` R160). -/

namespace Sys2Proof.Machine

/-- `10_state.md` R10 (a): the two stores that make up Memory. `dense` holds the cells at addresses 0 to L - 1, where L is
its length (R12). `overlay` holds pairs of an address and a cell (R13), in the canonical form of `Memory.wf`: addresses
strictly rising, each at or above L and legal, and no cell of value 0, the value an absent entry reads as (log 5). -/
structure Memory where
  dense : List Word
  overlay : List (Nat × Word)
deriving DecidableEq, Repr

/-- `10_state.md` R17: the values of the run-state register STATUS. -/
inductive Status where
  | running
  | halted
  | faulted
deriving DecidableEq, Repr

/-- `42_io.md` R97: one call on the I/O Boundary port: a value an input request returned, or a value emitted. -/
inductive IoEvent where
  | input (v : Word)
  | output (v : Word)
deriving DecidableEq, Repr

/-- The state of the machine. -/
structure State where
  /-- R10 (a): Memory -/
  mem : Memory
  /-- R15: the program counter, `x[0]` -/
  pc : Word
  /-- R16: the relative base, `x[1]` -/
  rb : Word
  /-- R17: STATUS -/
  status : Status
  /-- R18: FCAUSE -/
  fcause : BitVec 3
  /-- R18: FINFO -/
  finfo : Word
  /-- R24 and `42_io.md` R101: every I/O Boundary call so far, oldest first; a history, no state of the hardware (log 7) -/
  io : List IoEvent
  /-- DESIGN CHOICE (log 3): the model's own field, the values the environment has ready at the IN port, next first -/
  inputs : List Word
deriving DecidableEq, Repr

/-- The four faults of `60_exceptions.md` R135 to R138, each with the value FINFO records (R140). Raised by the fetch and by
the operand resolver; `raise` takes each as a NEXT state with STATUS = Faulted (R141, log 1), so no step of this machine
ends in `Host.Outcome.fault`. Safe: a faulted run is never a halted one. -/
inductive Fault where
  /-- R135, raised by the decoder in the fetch (stage 2); the opcode word; safe -/
  | invalidOpcode (w : Word)
  /-- R136, raised by the decoder in the fetch (stage 3); the opcode word; safe -/
  | invalidParameterMode (w : Word)
  /-- R137, raised by the decoder in the fetch (stage 4) and by the resolver of a write parameter; the opcode word; safe -/
  | invalidWriteTarget (w : Word)
  /-- R138, raised by every access to Memory (stages 1, 5 and 6); the negative address; safe -/
  | negativeAddress (a : Word)
deriving DecidableEq, Repr

/-- Why the model gives an instruction no meaning. -/
inductive Refusal where
  /-- raised by no arm of `exec` (every instruction has its meaning); safe -/
  | notModelled (mnemonic : String)
deriving DecidableEq, Repr

/-- `10_state.md` R22, `70_reset_and_hazards.md` R160 for the empty image (log 8): every value is the spec's but that of
`inputs`, which is the model's own (log 3). -/
def State.reset : State where
  mem := { dense := [], overlay := [] }
  pc := Config.entryPoint
  rb := Config.initialRelativeBase
  status := .running
  fcause := 0
  finfo := 0
  io := []
  inputs := []

end Sys2Proof.Machine
end

