-- ==== Sys2Proof/Machine/Ops.lean ====
section
/-! DEFINITION. The named operations over Memory and the registers, the 64-bit adder and multiplier, and fault entry
(`20_memory.md` R31, R32; `40_step_and_operands.md` R77, R79; `41_arithmetic.md` R92; `60_exceptions.md` R140, R141). -/

namespace Sys2Proof.Machine

/-! ## Memory -/

/-- `10_state.md` R13, R14: the cell the overlay holds for an address, or 0 without an entry. -/
def overlayGet : List (Nat × Word) → Nat → Word
  | [], _ => Config.unlisted
  | (k, v) :: rest, a => if k = a then v else overlayGet rest a

/-- `10_state.md` R13: inserts or updates the entry of an address, keeping the addresses rising; a cell of the value an
absent entry reads as is held as no entry (log 5). -/
def overlaySet (a : Nat) (v : Word) : List (Nat × Word) → List (Nat × Word)
  | [] => if v = Config.unlisted then [] else [(a, v)]
  | (k, w) :: rest =>
    if a < k then (if v = Config.unlisted then (k, w) :: rest else (a, v) :: (k, w) :: rest)
    else if a = k then (if v = Config.unlisted then rest else (a, v) :: rest)
    else (k, w) :: overlaySet a v rest

/-- The canonical form of an overlay whose addresses all lie at or above `lo`. -/
def overlayWf : Nat → List (Nat × Word) → Bool
  | _, [] => true
  | lo, (k, v) :: rest =>
    decide (lo ≤ k) && decide (k < Config.addrLimit) && decide (v ≠ Config.unlisted) && overlayWf (k + 1) rest

/-- The canonical form of Memory (`10_state.md` R12, R13; `46_host_interface.md` R121; log 5). -/
def Memory.wf (m : Memory) : Bool :=
  decide (m.dense.length < Config.addrLimit) && overlayWf m.dense.length m.overlay

/-- `10_state.md` R14: the abstract content `Mem(a)`. -/
def Memory.get (m : Memory) (a : Nat) : Word :=
  if a < m.dense.length then m.dense.getD a 0 else overlayGet m.overlay a

/-- `20_memory.md` R32: the store that holds the address is updated. -/
def Memory.set (m : Memory) (a : Nat) (v : Word) : Memory :=
  if a < m.dense.length then { m with dense := m.dense.set a v }
  else { m with overlay := overlaySet a v m.overlay }

/-- `20_memory.md` R33: the only check on an address. -/
def checkAddress (a : Word) : Except Fault Word :=
  if a.toInt < 0 then .error (.negativeAddress a) else .ok a

/-- `20_memory.md` R31: `MemRead(addr, 1)`. -/
def memRead (a : Word) (s : State) : Except Fault Word :=
  if a.toInt < 0 then .error (.negativeAddress a) else .ok (s.mem.get a.toNat)

/-- `20_memory.md` R32: `MemWrite(addr, 1, v)`. -/
def memWrite (a v : Word) (s : State) : Except Fault State :=
  if a.toInt < 0 then .error (.negativeAddress a) else .ok { s with mem := s.mem.set a.toNat v }

/-! ## Arithmetic and registers -/

/-- `40_step_and_operands.md` R77, `41_arithmetic.md` R92: the 64-bit adder. -/
def add64 (x y : Word) : Word :=
  wrap64 (x.toInt + y.toInt)

/-- `41_arithmetic.md` R92: the 64-bit multiplier. -/
def mul64 (x y : Word) : Word :=
  wrap64 (x.toInt * y.toInt)

/-- `10_state.md` R21: the register file, `x[0]` = `pc` and `x[1]` = `rb`. -/
def State.x (s : State) (i : Fin 2) : Word :=
  if i = 0 then s.pc else s.rb

/-- `00_scope.md` R6: `pc <- target`. -/
def setPc (target : Word) (s : State) : State :=
  { s with pc := target }

/-- `00_scope.md` R6: `rb <- v`. -/
def setRb (v : Word) (s : State) : State :=
  { s with rb := v }

/-- `40_step_and_operands.md` R79: the sequential advance past an instruction of `width` cells. -/
def advance (width : Nat) (s : State) : State :=
  setPc (add64 s.pc (BitVec.ofNat 64 width)) s

/-! ## The I/O Boundary -/

/-- `10_state.md` R24: the values of the input calls of a history. -/
def inputEvents : List IoEvent → List Word
  | [] => []
  | .input v :: rest => v :: inputEvents rest
  | .output _ :: rest => inputEvents rest

/-- `10_state.md` R24: the values of the output calls of a history. -/
def outputEvents : List IoEvent → List Word
  | [] => []
  | .input _ :: rest => outputEvents rest
  | .output v :: rest => v :: outputEvents rest

/-- `10_state.md` R24: `in_hist`. -/
def State.inHist (s : State) : List Word :=
  inputEvents s.io

/-- `10_state.md` R24: `out_hist`. -/
def State.outHist (s : State) : List Word :=
  outputEvents s.io

/-- `42_io.md` R98, R100: `InputRequest()`, the value and the state after the call, or none where the environment supplies
no value. -/
def inputRequest (s : State) : Option (Word × State) :=
  match s.inputs with
  | [] => none
  | v :: rest => some (v, { s with inputs := rest, io := s.io ++ [.input v] })

/-- `42_io.md` R99: `OutputEmit(v)`. -/
def outputEmit (v : Word) (s : State) : State :=
  { s with io := s.io ++ [.output v] }

/-! ## Fault entry and the end of a run -/

/-- `60_exceptions.md` R140: the code FCAUSE takes. -/
def Fault.code : Fault → BitVec 3
  | .invalidOpcode _ => 1
  | .invalidParameterMode _ => 2
  | .invalidWriteTarget _ => 3
  | .negativeAddress _ => 4

/-- `60_exceptions.md` R140: the value FINFO takes. -/
def Fault.info : Fault → Word
  | .invalidOpcode w => w
  | .invalidParameterMode w => w
  | .invalidWriteTarget w => w
  | .negativeAddress a => a

/-- `60_exceptions.md` R141: fault entry, on the state before the faulting step (`40_step_and_operands.md` R80). There is no
return from it (R142). -/
def raise (f : Fault) (s : State) : Host.Outcome State Fault Refusal :=
  .next { s with status := .faulted, fcause := f.code, finfo := f.info }

/-- A step either completes or raises a fault having done nothing (`40_step_and_operands.md` R76, R80). -/
def settle (s : State) (r : Except Fault State) : Host.Outcome State Fault Refusal :=
  match r with
  | .ok t => .next t
  | .error f => raise f s

/-- `45_relbase_stop.md` R116: `STATUS <- Halted`. -/
def halt (s : State) : State :=
  { s with status := .halted }

/-- `40_step_and_operands.md` R82: in Halted and in Faulted no step is performed and no state changes (log 2). -/
def idle (s : State) : Host.Outcome State Fault Refusal :=
  .next s

/-- `10_state.md` R17: the two bits of STATUS as the host reads them. -/
def Status.code : Status → BitVec 2
  | .running => 0
  | .halted => 1
  | .faulted => 2

end Sys2Proof.Machine
end

