-- ==== Sys2Proof/Machine/Operands.lean ====
section
/-! DEFINITION. The Operand Resolver (`40_step_and_operands.md` R74, R75, R78) and the formats of `30_encoding.md` R56: stages
4 and 6 of the step (R76), common to every instruction. -/

namespace Sys2Proof.Machine

/-- R74, R75: the address a parameter names in Position or Relative mode. `rb` is the relative base at the start of the
step. An Immediate parameter names no address; its arm is never used. -/
def effectiveAddress (p : Param) (s : State) : Word :=
  match p.mode with
  | .position => p.raw
  | .relative => add64 s.rb p.raw
  | .immediate => p.raw

/-- R74: `rd(i)`, the value of a read parameter. -/
def rd (p : Param) (s : State) : Except Fault Word :=
  match p.mode with
  | .immediate => .ok p.raw
  | .position => memRead (effectiveAddress p s) s
  | .relative => memRead (effectiveAddress p s) s

/-- `10_state.md` R15: during a step `pc` holds the address of the opcode word of the instruction being executed, the word
InvalidWriteTarget records (log 11). -/
def currentOpcodeWord (s : State) : Word :=
  s.mem.get s.pc.toNat

/-- R76 stage 4: the mode of a write parameter. A decoded instruction has passed this check in the decoder. -/
def checkWriteMode (p : Param) (s : State) : Except Fault Unit :=
  match p.mode with
  | .immediate => .error (.invalidWriteTarget (currentOpcodeWord s))
  | .position => .ok ()
  | .relative => .ok ()

/-- R75: `wa(i)`, the address of a write parameter. -/
def wa (p : Param) (s : State) : Except Fault Word :=
  match p.mode with
  | .immediate => .error (.invalidWriteTarget (currentOpcodeWord s))
  | .position => checkAddress (effectiveAddress p s)
  | .relative => checkAddress (effectiveAddress p s)

/-- Format F3 of `30_encoding.md` R56 with stages 4, 6, 7 and 8 of R76: two values read, their result written, four cells. -/
def format3 (f : Word → Word → Word) (a b dst : Param) (s : State) : Except Fault State := do
  checkWriteMode dst s
  let v1 ← rd a s
  let v2 ← rd b s
  let d ← wa dst s
  let t ← memWrite d (f v1 v2) s
  .ok (advance 4 t)

/-- Format F2R: the condition and the target are both resolved before the jump is decided (R78); three cells. -/
def format2 (taken : Word → Bool) (cond target : Param) (s : State) : Except Fault State := do
  let v1 ← rd cond s
  let v2 ← rd target s
  .ok (if taken v1 then setPc v2 s else advance 3 s)

/-- Format F1R: one value read, its effect, two cells. -/
def format1 (effect : Word → State → State) (a : Param) (s : State) : Except Fault State := do
  let v1 ← rd a s
  .ok (advance 2 (effect v1 s))

/-- Format F1W: the destination is resolved before the request is made (`42_io.md` R95); without a value the core stays in
the state before the step (R100, log 4); two cells. -/
def format1w (dst : Param) (s : State) : Except Fault State := do
  checkWriteMode dst s
  let d ← wa dst s
  match inputRequest s with
  | none => .ok s
  | some (v, t) =>
    let u ← memWrite d v t
    .ok (advance 2 u)

end Sys2Proof.Machine
end

