-- ==== Sys2Proof/Machine/Arithmetic.lean ====
section
/-! DEFINITION. Add and Multiply (`41_arithmetic.md`). -/

namespace Sys2Proof.Machine

/-- R90: `MemWrite(dst, 1, wrap64(v1 + v2)); pc <- wrap64(pc + 4)`. -/
def execAdd (a b dst : Param) (s : State) : Host.Outcome State Fault Refusal :=
  settle s (format3 add64 a b dst s)

/-- R91: `MemWrite(dst, 1, wrap64(v1 * v2)); pc <- wrap64(pc + 4)`. -/
def execMultiply (a b dst : Param) (s : State) : Host.Outcome State Fault Refusal :=
  settle s (format3 mul64 a b dst s)

end Sys2Proof.Machine
end

