-- ==== Sys2Proof/Machine/Flags.lean ====
section
/-! DEFINITION. There are no status flags, condition codes or predicates (`10_state.md` R19): no instruction reads or writes
one. What other machines hold in flags is here the cell a comparison writes (`44_compare.md` R112) and the test a jump
makes on a value (`43_jumps.md` R105, R106). -/

namespace Sys2Proof.Machine

/-- `44_compare.md` R112: the result of a comparison, the integer 1 or the integer 0 as a whole cell. -/
def truthCell (b : Bool) : Word :=
  if b then 1 else 0

/-- `44_compare.md` R110, R112: comparison as signed integers. -/
def lessThanCell (x y : Word) : Word :=
  truthCell (decide (x.toInt < y.toInt))

/-- `44_compare.md` R111, R112: equality of all 64 bits. -/
def equalToCell (x y : Word) : Word :=
  truthCell (decide (x = y))

/-- `43_jumps.md` R105: every non-zero condition, negative ones included, is true. -/
def isTrue (x : Word) : Bool :=
  decide (x ≠ 0)

end Sys2Proof.Machine
end

