-- ==== Sys2Proof/Machine/Compare.lean ====
section
/-! DEFINITION. LessThan and EqualTo (`44_compare.md`). -/

namespace Sys2Proof.Machine

/-- R110: `MemWrite(dst, 1, (1 if v1 < v2 else 0)); pc <- wrap64(pc + 4)`. -/
def execLessThan (a b dst : Param) (s : State) : Host.Outcome State Fault Refusal :=
  settle s (format3 lessThanCell a b dst s)

/-- R111: `MemWrite(dst, 1, (1 if v1 = v2 else 0)); pc <- wrap64(pc + 4)`. -/
def execEqualTo (a b dst : Param) (s : State) : Host.Outcome State Fault Refusal :=
  settle s (format3 equalToCell a b dst s)

end Sys2Proof.Machine
end

