-- ==== Sys2Proof/Machine/InputOutput.lean ====
section
/-! DEFINITION. Input and Output (`42_io.md`). -/

namespace Sys2Proof.Machine

/-- R95: `dst <- wa(1); v <- InputRequest(); MemWrite(dst, 1, v); pc <- wrap64(pc + 2)`, holding without a value (R100). -/
def execInput (dst : Param) (s : State) : Host.Outcome State Fault Refusal :=
  settle s (format1w dst s)

/-- R96: `OutputEmit(v1); pc <- wrap64(pc + 2)`. -/
def execOutput (a : Param) (s : State) : Host.Outcome State Fault Refusal :=
  settle s (format1 outputEmit a s)

end Sys2Proof.Machine
end

