-- ==== Sys2Proof/Machine/Jumps.lean ====
section
/-! DEFINITION. JumpIfTrue and JumpIfFalse (`43_jumps.md`). The target is not checked at the jump (R107). -/

namespace Sys2Proof.Machine

/-- R105: `if v1 != 0 then pc <- v2 else pc <- wrap64(pc + 3)`. -/
def execJumpIfTrue (cond target : Param) (s : State) : Host.Outcome State Fault Refusal :=
  settle s (format2 isTrue cond target s)

/-- R106: `if v1 = 0 then pc <- v2 else pc <- wrap64(pc + 3)`. -/
def execJumpIfFalse (cond target : Param) (s : State) : Host.Outcome State Fault Refusal :=
  settle s (format2 (fun v => !isTrue v) cond target s)

end Sys2Proof.Machine
end

