-- ==== Sys2Proof/Machine/RelBaseStop.lean ====
section
/-! DEFINITION. AdjustRelativeBase and Stop (`45_relbase_stop.md`). -/

namespace Sys2Proof.Machine

/-- R115: `rb <- wrap64(rb + v1); pc <- wrap64(pc + 2)`. -/
def execAdjustRelativeBase (a : Param) (s : State) : Host.Outcome State Fault Refusal :=
  settle s (format1 (fun v t => setRb (add64 t.rb v) t) a s)

/-- R116: `STATUS <- Halted`, `pc`, `rb` and Memory unchanged. -/
def execStop (s : State) : Host.Outcome State Fault Refusal :=
  .next (halt s)

end Sys2Proof.Machine
end

