-- ==== Sys2Proof/Syntax.lean ====
section
/-! DEFINITION. The instructions of CORE: the ten rows of `30_encoding.md` R57 and `spec/opcode_table.json`, each with
its parameters in order (R56). -/

namespace Sys2Proof

/-- `30_encoding.md` R56, R57: one constructor per row of the instruction table. A parameter called `dst` is a write
parameter, every other one a read parameter. -/
inductive Instr where
  /-- operation code 1 -/
  | add (a b dst : Param)
  /-- operation code 2 -/
  | multiply (a b dst : Param)
  /-- operation code 3 -/
  | input (dst : Param)
  /-- operation code 4 -/
  | output (a : Param)
  /-- operation code 5 -/
  | jumpIfTrue (cond target : Param)
  /-- operation code 6 -/
  | jumpIfFalse (cond target : Param)
  /-- operation code 7 -/
  | lessThan (a b dst : Param)
  /-- operation code 8 -/
  | equalTo (a b dst : Param)
  /-- operation code 9 -/
  | adjustRelativeBase (a : Param)
  /-- operation code 99 -/
  | stop
deriving DecidableEq, Repr

end Sys2Proof
end

