-- ==== Sys2Proof/WellFormed.lean ====
section
/-! DEFINITION. What makes an instruction well-formed: its write parameter, if it has one, is not in Immediate mode
(`30_encoding.md` R60, R61 (d); `40_step_and_operands.md` R75). Modes 3 to 9 have no term (R54), and a raw value may be
any 64-bit value (R59), so nothing else needs a check. -/

namespace Sys2Proof

/-- `40_step_and_operands.md` R75: Immediate cannot be a write target. -/
def Param.writable (p : Param) : Bool :=
  p.mode != .immediate

/-- `30_encoding.md` R60: the legal mode digits of each instruction. -/
def Instr.wellFormed : Instr → Bool
  | .add _ _ dst => dst.writable
  | .multiply _ _ dst => dst.writable
  | .input dst => dst.writable
  | .output _ => true
  | .jumpIfTrue _ _ => true
  | .jumpIfFalse _ _ => true
  | .lessThan _ _ dst => dst.writable
  | .equalTo _ _ dst => dst.writable
  | .adjustRelativeBase _ => true
  | .stop => true

end Sys2Proof
end

