-- ==== Sys2Proof/Decode.lean ====
section
/-! DEFINITION. The Instruction Decoder (`30_encoding.md`) and, after it, the encoder. The encoding is decimal (R51):
the operation code is the opcode word modulo 100 and each higher decimal digit is the mode of one parameter. The
Memory reads of the parameter cells are the machine's (`Machine/Fetch.lean`); here the cells are given as a list. -/

namespace Sys2Proof

/-- The operation a legal operation code names (R57). -/
inductive Op where
  | add | multiply | input | output | jumpIfTrue | jumpIfFalse | lessThan | equalTo | adjustRelativeBase | stop
deriving DecidableEq, Repr

/-- R57: the rows of the instruction table by operation code; every other code selects no row (R61). -/
def Op.ofCode (code : Nat) : Option Op :=
  match code with
  | 1 => some .add
  | 2 => some .multiply
  | 3 => some .input
  | 4 => some .output
  | 5 => some .jumpIfTrue
  | 6 => some .jumpIfFalse
  | 7 => some .lessThan
  | 8 => some .equalTo
  | 9 => some .adjustRelativeBase
  | 99 => some .stop
  | _ => none

/-- R56: the number of parameters, found from the operation code alone (R58). -/
def Op.nparams : Op → Nat
  | .add | .multiply | .lessThan | .equalTo => 3
  | .jumpIfTrue | .jumpIfFalse => 2
  | .input | .output | .adjustRelativeBase => 1
  | .stop => 0

/-- R56: which parameter (counted from 1) is the write parameter. -/
def Op.writeParam : Op → Option Nat
  | .add | .multiply | .lessThan | .equalTo => some 3
  | .input => some 1
  | .output | .jumpIfTrue | .jumpIfFalse | .adjustRelativeBase | .stop => none

/-- Why a list of cells is no instruction. The first three are the decoding faults of R61 and carry the opcode word;
the last only says that the list ends inside the instruction and is no fault of the machine. -/
inductive DecodeError where
  /-- R61 (a), (b): a negative word, or an operation code outside the table -/
  | invalidOpcode (w : Word)
  /-- R61 (c): a mode digit 3 to 9 in the position of a parameter -/
  | invalidParameterMode (w : Word)
  /-- R61 (d): the write parameter is in Immediate mode -/
  | invalidWriteTarget (w : Word)
  /-- fewer cells than the instruction has (R50) -/
  | truncated
deriving DecidableEq, Repr

/-- R54: the mode a digit names; 3 to 9 name none. -/
def Mode.ofDigit (digit : Nat) : Option Mode :=
  match digit with
  | 0 => some .position
  | 1 => some .immediate
  | 2 => some .relative
  | _ => none

/-- R53: the mode digit of parameter `i`, counted from 1, of the mode digits `md`. -/
def modeDigit (md i : Nat) : Nat :=
  md / 10 ^ (i - 1) % 10

/-- R54: the modes of the listed parameters, or none if one of their digits names no mode. -/
def modesOf (md : Nat) : List Nat → Option (List Mode)
  | [] => some []
  | i :: is =>
    match Mode.ofDigit (modeDigit md i), modesOf md is with
    | some m, some ms => some (m :: ms)
    | _, _ => none

/-- The parameters an operation has, counted from 1 (R56). Digits above the last one are not examined (R55). -/
def Op.paramIndices (op : Op) : List Nat :=
  (List.range op.nparams).map (· + 1)

/-- An opcode word that passed every check of the decoder: the operation and the modes of its parameters in order. -/
structure Opcode where
  op : Op
  modes : List Mode
deriving DecidableEq, Repr

/-- The mode of parameter `i`, counted from 1. -/
def Opcode.mode (o : Opcode) (i : Nat) : Mode :=
  o.modes.getD (i - 1) .position

/-- R61 (d): whether the write parameter is in Immediate mode. -/
def Opcode.writesImmediate (o : Opcode) : Bool :=
  match o.op.writeParam with
  | some i => o.mode i == .immediate
  | none => false

/-- R51 to R55 and stages 2 to 4 of `40_step_and_operands.md` R76, in that order: the negative word, the operation
code, the mode digits, the mode of the write parameter. -/
def decodeOpcode (w : Word) : Except DecodeError Opcode :=
  if w.toInt < 0 then .error (.invalidOpcode w)
  else
    match Op.ofCode (w.toNat % 100) with
    | none => .error (.invalidOpcode w)
    | some op =>
      match modesOf (w.toNat / 100) op.paramIndices with
      | none => .error (.invalidParameterMode w)
      | some modes =>
        if Opcode.writesImmediate ⟨op, modes⟩ then .error (.invalidWriteTarget w) else .ok ⟨op, modes⟩

/-- R73: parameter `i`, counted from 1, from its mode and its raw cell. -/
def Opcode.param (o : Opcode) (raws : List Word) (i : Nat) : Param :=
  ⟨o.mode i, raws.getD (i - 1) 0⟩

/-- R50, R56: the instruction an opcode word and its raw parameter cells make. -/
def Opcode.build (o : Opcode) (raws : List Word) : Instr :=
  let p := o.param raws
  match o.op with
  | .add => .add (p 1) (p 2) (p 3)
  | .multiply => .multiply (p 1) (p 2) (p 3)
  | .input => .input (p 1)
  | .output => .output (p 1)
  | .jumpIfTrue => .jumpIfTrue (p 1) (p 2)
  | .jumpIfFalse => .jumpIfFalse (p 1) (p 2)
  | .lessThan => .lessThan (p 1) (p 2) (p 3)
  | .equalTo => .equalTo (p 1) (p 2) (p 3)
  | .adjustRelativeBase => .adjustRelativeBase (p 1)
  | .stop => .stop

/-- R50, R58: the instruction that consecutive cells begin with, and the cells after it. -/
def decode : List Word → Except DecodeError (Instr × List Word)
  | [] => .error .truncated
  | w :: rest =>
    match decodeOpcode w with
    | .error e => .error e
    | .ok o =>
      if rest.length < o.op.nparams then .error .truncated
      else .ok (o.build (rest.take o.op.nparams), rest.drop o.op.nparams)

/-! ## The encoder -/

/-- R57: the operation code of an instruction. -/
def Instr.code : Instr → Nat
  | .add _ _ _ => 1
  | .multiply _ _ _ => 2
  | .input _ => 3
  | .output _ => 4
  | .jumpIfTrue _ _ => 5
  | .jumpIfFalse _ _ => 6
  | .lessThan _ _ _ => 7
  | .equalTo _ _ _ => 8
  | .adjustRelativeBase _ => 9
  | .stop => 99

/-- R56: the parameters of an instruction in order. -/
def Instr.params : Instr → List Param
  | .add a b dst => [a, b, dst]
  | .multiply a b dst => [a, b, dst]
  | .input dst => [dst]
  | .output a => [a]
  | .jumpIfTrue cond target => [cond, target]
  | .jumpIfFalse cond target => [cond, target]
  | .lessThan a b dst => [a, b, dst]
  | .equalTo a b dst => [a, b, dst]
  | .adjustRelativeBase a => [a]
  | .stop => []

/-- R54: the digit of a mode. -/
def Mode.digit : Mode → Nat
  | .position => 0
  | .immediate => 1
  | .relative => 2

/-- R53: the mode digits of parameters, the first one's least significant. -/
def modeDigits : List Param → Nat
  | [] => 0
  | p :: ps => p.mode.digit + 10 * modeDigits ps

/-- R62: the canonical opcode word `op + 100 * digit_1 + 1000 * digit_2 + 10000 * digit_3`. -/
def Instr.opcodeWord (i : Instr) : Word :=
  BitVec.ofNat 64 (i.code + 100 * modeDigits i.params)

/-- R50, R62: the cells of an instruction, the canonical opcode word and then the raw values. -/
def encode (i : Instr) : List Word :=
  i.opcodeWord :: i.params.map Param.raw

/-! ## The opcode table's numbering of an instruction's bits -/

/-- The longest instruction has four cells (R50). -/
def maxCells : Nat := 4

/-- The cells of an instruction whose bits are `w`, bit 0 the least significant bit of the first cell and every bit at
or above `nbits` zero (log 10). -/
def cellsOfTableWord (nbits w : Nat) : List Word :=
  (List.range maxCells).map fun k => BitVec.ofNat 64 (w % 2 ^ nbits / 2 ^ (64 * k))

/-- The instruction the decoder reads from those cells, or none where it refuses them. -/
def decodeTableWord (nbits w : Nat) : Option Instr :=
  match decode (cellsOfTableWord nbits w) with
  | .ok (i, _) => some i
  | .error _ => none

end Sys2Proof
end

