-- ==== Sys2Proof/Machine/Fetch.lean ====
section
/-! DEFINITION. Stages 1 to 5 of the step (`40_step_and_operands.md` R76): the opcode word at `pc` (R71), its decoding and
validation, and the raw parameters at `pc + 1` and on (R72). Nothing decoded is kept from one step to the next
(`10_state.md` R20, `20_memory.md` R43). -/

namespace Sys2Proof.Machine

/-- `60_exceptions.md` R135 to R137: the fault a decoding error of the opcode word is. The decoder of an opcode word alone
never answers `truncated`. -/
def decodeFault (w : Word) : DecodeError → Fault
  | .invalidOpcode v => .invalidOpcode v
  | .invalidParameterMode v => .invalidParameterMode v
  | .invalidWriteTarget v => .invalidWriteTarget v
  | .truncated => .invalidOpcode w

/-- Stages 2 to 4. -/
def decodeWord (w : Word) : Except Fault Opcode :=
  match decodeOpcode w with
  | .ok o => .ok o
  | .error e => .error (decodeFault w e)

/-- R72: the address of parameter `i`, counted from 1. -/
def paramAddress (s : State) (i : Nat) : Word :=
  add64 s.pc (BitVec.ofNat 64 i)

/-- Stage 5: the raw values of the listed parameters, in order. -/
def fetchRaws (s : State) : List Nat → Except Fault (List Word)
  | [] => .ok []
  | i :: is => do
    let raw ← memRead (paramAddress s i) s
    let raws ← fetchRaws s is
    .ok (raw :: raws)

/-- Stages 1 to 5: the instruction at `pc`, or the first fault. -/
def fetch (s : State) : Except Fault Instr := do
  let w ← memRead s.pc s
  let o ← decodeWord w
  let raws ← fetchRaws s o.op.paramIndices
  .ok (o.build raws)

/-- Cells stored at consecutive addresses from `a` on (what a load of an image does). -/
def storeCells (m : Memory) (a : Nat) : List Word → Memory
  | [] => m
  | w :: ws => storeCells (m.set a w) (a + 1) ws

end Sys2Proof.Machine
end

