-- ==== Sys2Proof/Machine/Step.lean ====
section
/-! DEFINITION. One step of the Execution Engine (`40_step_and_operands.md` R70, R76, R82), and where a step fetches its
next instruction. -/

namespace Sys2Proof.Machine

/-- R82: a step is performed only while STATUS = Running. R76: stages 1 to 5 are `fetch`, stages 6 to 8 are `exec`; a fault
of either is taken on the state before the step (R80). -/
def step (s : State) : Host.Outcome State Fault Refusal :=
  match s.status with
  | .running =>
    match fetch s with
    | .ok i => exec i s
    | .error f => raise f s
  | .halted => idle s
  | .faulted => idle s

/-- The state `s` with an instruction's cells stored at `pc`, ready to step (log 9): STATUS is Running, and a `pc` within
the last cells of the address space or negative, where the cells have no place, gives way to the entry point. -/
def State.withFetchWord (s : State) (nbits w : Nat) : State :=
  let pc := if s.pc.toNat + maxCells ≤ Config.addrLimit then s.pc else Config.entryPoint
  { s with mem := storeCells s.mem pc.toNat (cellsOfTableWord nbits w), pc := pc, status := .running }

end Sys2Proof.Machine
end

