-- ==== Sys2Proof/Machine/HostPort.lean ====
section
/-! DEFINITION. The transactions of the host and the environment (`46_host_interface.md` R120 to R126). None is a step of the
core: each is a move of the outside world between steps. -/

namespace Sys2Proof.Machine

/-- R120, `70_reset_and_hazards.md` R160: `Construct(IMAGE)`, the only reset. Nothing of an earlier run persists (R128). -/
def construct (image : List Word) : State :=
  { State.reset with mem := { dense := image, overlay := [] } }

/-- `42_io.md` R100, R101: the environment supplies one more input value, between steps (log 3). -/
def supply (v : Word) (s : State) : State :=
  { s with inputs := s.inputs ++ [v] }

/-- R123: `Inspect(a)`, available when STATUS is Halted or Faulted, for a legal address. -/
def inspect (a : Nat) (s : State) : Option Word :=
  match s.status with
  | .running => none
  | .halted => if a < Config.addrLimit then some (s.mem.get a) else none
  | .faulted => if a < Config.addrLimit then some (s.mem.get a) else none

/-- R123: the host may also read `pc` (`x[0]`) and `rb` (`x[1]`) when STATUS is not Running. -/
def inspectRegister (i : Fin 2) (s : State) : Option Word :=
  match s.status with
  | .running => none
  | .halted => some (s.x i)
  | .faulted => some (s.x i)

/-- What the STATUS port shows (R124, R125): STATUS, FCAUSE and FINFO. -/
structure StatusPort where
  status : BitVec 2
  fcause : BitVec 3
  finfo : Word
deriving DecidableEq, Repr

/-- R124: reading the STATUS port changes nothing. DESIGN CHOICE (log 16): it can be read at any time, as R124 and R122 say,
where `60_exceptions.md` R152 says that the STATUS and INSPECT ports work only outside a run: `readStatusOutsideRun`. -/
def readStatus (s : State) : StatusPort :=
  ⟨s.status.code, s.fcause, s.finfo⟩

/-- R152 read by its own words: the STATUS port with nothing to read while STATUS = Running (log 16). A claim about the host
that uses this one holds under R124 and R152 alike. -/
def readStatusOutsideRun (s : State) : Option StatusPort :=
  match s.status with
  | .running => none
  | .halted => some (readStatus s)
  | .faulted => some (readStatus s)

end Sys2Proof.Machine
end

