-- ==== Sys2Proof/Safety.lean ====
section
/-! DEFINITION. What claims about CORE are stated in: how a run ends (`70_reset_and_hazards.md` R171), what a reachable state
looks like (`State.Inv`), and which states no program can tell apart (`10_state.md` R14). -/

namespace Sys2Proof.Machine

/-- R171: a run has ended successfully exactly when STATUS = Halted. -/
def State.succeeded (s : State) : Prop :=
  s.status = .halted

/-- R171: a run that ends with STATUS = Faulted has not ended successfully. -/
def State.failed (s : State) : Prop :=
  s.status = .faulted

/-- `20_memory.md` R30: an address that is an access's. -/
def legalAddress (a : Word) : Prop :=
  0 ≤ a.toInt

/-- `45_relbase_stop.md` R116, `30_encoding.md` R55: an opcode word that selects Stop. -/
def isStopWord (w : Word) : Prop :=
  0 ≤ w.toInt ∧ w.toInt % 100 = 99

/-- `60_exceptions.md` R140: what FCAUSE and FINFO may hold together once a step from Running has faulted: the decoder's
fault of the cell at `pc`, with that cell, or NegativeAddress with a negative value. -/
def faultRecord (s : State) : Prop :=
  (∃ e, legalAddress s.pc ∧ decodeOpcode (s.mem.get s.pc.toNat) = .error e ∧
      s.fcause = (decodeFault (s.mem.get s.pc.toNat) e).code ∧ s.finfo = s.mem.get s.pc.toNat) ∨
    (s.fcause = 4 ∧ s.finfo.toInt < 0)

/-- The invariant of the machine: Memory is in canonical form (R12, R13), and STATUS, FCAUSE, FINFO and `pc` agree (R17,
R18, R116, R140). -/
structure State.Inv (s : State) : Prop where
  mem_wf : s.mem.wf = true
  running : s.status = .running → s.fcause = 0 ∧ s.finfo = 0
  halted : s.status = .halted →
    s.fcause = 0 ∧ s.finfo = 0 ∧ legalAddress s.pc ∧ isStopWord (s.mem.get s.pc.toNat)
  faulted : s.status = .faulted → faultRecord s

/-- `10_state.md` R14: two states that differ at most in how Memory is split between the dense segment and the overlay. -/
def State.sameContent (s t : State) : Prop :=
  (∀ a, s.mem.get a = t.mem.get a) ∧ s.pc = t.pc ∧ s.rb = t.rb ∧ s.status = t.status ∧ s.fcause = t.fcause ∧
    s.finfo = t.finfo ∧ s.io = t.io ∧ s.inputs = t.inputs

/-- Two states that differ at most in the values the environment has ready (log 3): all the state the spec gives the machine,
and both histories, are the same. -/
def State.sameButInputs (s t : State) : Prop :=
  { s with inputs := [] } = { t with inputs := [] }

/-! ## Runs in which the environment supplies values between steps (`42_io.md` R101) -/

/-- One move of the closed system: a step of the core, or a value the environment supplies (log 3). -/
inductive Move where
  | step
  | supply (v : Word)
deriving DecidableEq, Repr

/-- The moves in order, stopping as `Host.Core.run` does. -/
def playMoves : List Move → State → Host.Outcome State Fault Refusal
  | [], s => .next s
  | .supply v :: moves, s => playMoves moves (supply v s)
  | .step :: moves, s =>
    match step s with
    | .next t => playMoves moves t
    | .fault f => .fault f
    | .refused r => .refused r

/-- `42_io.md` R100: an Input whose destination resolves asks for a value and there is none, so its step does not happen. -/
def State.waits (s : State) : Bool :=
  s.inputs.isEmpty &&
    match fetch s with
    | .ok (.input dst) => (wa dst s).isOk
    | .ok _ => false
    | .error _ => false

/-- `40_step_and_operands.md` R82: whether a call of `step` performs a step (logs 2, 4). -/
def State.performs (s : State) : Bool :=
  decide (s.status = .running) && !s.waits

/-- How many steps the moves perform. -/
def performedSteps : List Move → State → Nat
  | [], _ => 0
  | .supply v :: moves, s => performedSteps moves (supply v s)
  | .step :: moves, s =>
    (if s.performs then 1 else 0) +
      match step s with
      | .next t => performedSteps moves t
      | .fault _ => 0
      | .refused _ => 0

/-- The Memory after the listed writes, each an address and a value, in order (`20_memory.md` R32). -/
def Memory.afterWrites (m : Memory) (writes : List (Nat × Word)) : Memory :=
  writes.foldl (fun m' w => m'.set w.1 w.2) m

/-- The next state of an outcome, for tests and statements that look at one field of it. -/
def nextState? (o : Host.Outcome State Fault Refusal) : Option State :=
  match o with
  | .next t => some t
  | .fault _ => none
  | .refused _ => none

end Sys2Proof.Machine
end

