-- ==== Sys2Proof/Safety/Rule.lean ====
section
/-! DEFINITION. The step as `40_step_and_operands.md` R76 writes it, over the integers: Memory is the total function `Mem` of
`10_state.md` R14, every value a member of Z, every field of the opcode word a decimal digit, and every check stands in the
order of `60_exceptions.md` R143. It shares no operation with the machine: claims relate the two. -/

namespace Sys2Proof.Rule

open Sys2Proof.Machine (Status)

/-- What R10 and R24 name, over the integers; `supplied` is what the environment has ready to answer (`42_io.md` R98). -/
structure RuleState where
  mem : Int → Int
  pc : Int
  rb : Int
  status : Status
  fcause : Nat
  finfo : Int
  inHist : List Int
  outHist : List Int
  supplied : List Int

/-- `00_scope.md` R6: the unique member of `i64` congruent to `v` modulo 2^64. -/
def wrap (v : Int) : Int :=
  (v + 2 ^ 63) % 2 ^ 64 - 2 ^ 63

/-- `30_encoding.md` R51. -/
def opOf (w : Int) : Int :=
  w % 100

/-- `30_encoding.md` R57: the operation codes of the table. -/
abbrev inTable (op : Int) : Prop :=
  op ∈ ([1, 2, 3, 4, 5, 6, 7, 8, 9, 99] : List Int)

/-- `30_encoding.md` R56. -/
def nparams (op : Int) : Nat :=
  if op = 1 ∨ op = 2 ∨ op = 7 ∨ op = 8 then 3
  else if op = 5 ∨ op = 6 then 2
  else if op = 3 ∨ op = 4 ∨ op = 9 then 1
  else 0

/-- `30_encoding.md` R56. -/
abbrev isWrite (op : Int) (i : Nat) : Prop :=
  ((op = 1 ∨ op = 2 ∨ op = 7 ∨ op = 8) ∧ i = 3) ∨ (op = 3 ∧ i = 1)

/-- `30_encoding.md` R53: the mode digit of parameter `i`, counted from 1. -/
def digit (w : Int) (i : Nat) : Int :=
  w / 100 / 10 ^ (i - 1) % 10

/-- The parameters of the instruction an opcode word selects, in order. -/
def params (w : Int) : List Nat :=
  [1, 2, 3].take (nparams (opOf w))

/-- R72. -/
def paramAddress (r : RuleState) (i : Nat) : Int :=
  wrap (r.pc + i)

/-- R72. -/
def raw (r : RuleState) (i : Nat) : Int :=
  r.mem (paramAddress r i)

/-- R74, R75: the address a Position or Relative parameter names. -/
def operandAddress (r : RuleState) (w : Int) (i : Nat) : Option Int :=
  if digit w i = 0 then some (raw r i)
  else if digit w i = 2 then some (wrap (r.rb + raw r i))
  else none

/-- R74: the value of a read parameter. -/
def value (r : RuleState) (w : Int) (i : Nat) : Int :=
  match operandAddress r w i with
  | some a => r.mem a
  | none => raw r i

/-- R75: the address of a write parameter. -/
def target (r : RuleState) (w : Int) (i : Nat) : Int :=
  (operandAddress r w i).getD 0

/-- Stages 1 to 6 of R76: the code and the recorded value of the first check that fails (R143, R140). -/
def firstFault (r : RuleState) : Option (Nat × Int) :=
  let w := r.mem r.pc
  if r.pc < 0 then some (4, r.pc)
  else if w < 0 then some (1, w)
  else if ¬ inTable (opOf w) then some (1, w)
  else if ∃ i ∈ params w, 2 < digit w i then some (2, w)
  else if ∃ i ∈ params w, isWrite (opOf w) i ∧ digit w i = 1 then some (3, w)
  else
    match ((params w).map (paramAddress r)).find? (· < 0) with
    | some a => some (4, a)
    | none =>
      match ((params w).filterMap (operandAddress r w)).find? (· < 0) with
      | some a => some (4, a)
      | none => none

/-- `MemWrite` of R32 on the total function of R14. -/
def store (m : Int → Int) (a v : Int) : Int → Int :=
  fun b => if b = a then v else m b

/-- Stages 7 and 8 of R76: the execute stage of each instruction and the write of `pc` or STATUS (R79). -/
def execute (r : RuleState) : RuleState :=
  let w := r.mem r.pc
  let op := opOf w
  let v1 := value r w 1
  let v2 := value r w 2
  let next := fun width : Int => wrap (r.pc + width)
  if op = 1 then { r with mem := store r.mem (target r w 3) (wrap (v1 + v2)), pc := next 4 }
  else if op = 2 then { r with mem := store r.mem (target r w 3) (wrap (v1 * v2)), pc := next 4 }
  else if op = 3 then
    match r.supplied with
    | [] => r
    | v :: rest =>
      { r with mem := store r.mem (target r w 1) v, pc := next 2, inHist := r.inHist ++ [v], supplied := rest }
  else if op = 4 then { r with outHist := r.outHist ++ [v1], pc := next 2 }
  else if op = 5 then { r with pc := if v1 ≠ 0 then v2 else next 3 }
  else if op = 6 then { r with pc := if v1 = 0 then v2 else next 3 }
  else if op = 7 then { r with mem := store r.mem (target r w 3) (if v1 < v2 then 1 else 0), pc := next 4 }
  else if op = 8 then { r with mem := store r.mem (target r w 3) (if v1 = v2 then 1 else 0), pc := next 4 }
  else if op = 9 then { r with rb := wrap (r.rb + v1), pc := next 2 }
  else { r with status := .halted }

/-- R76, R82, R141: the whole step. -/
def step (r : RuleState) : RuleState :=
  if r.status = .running then
    match firstFault r with
    | some (code, info) => { r with status := .faulted, fcause := code, finfo := info }
    | none => execute r
  else r

/-- The machine's state over the integers. A negative address names no cell. -/
def view (s : Machine.State) : RuleState where
  mem := fun a => if 0 ≤ a then (s.mem.get a.toNat).toInt else 0
  pc := s.pc.toInt
  rb := s.rb.toInt
  status := s.status
  fcause := s.fcause.toNat
  finfo := s.finfo.toInt
  inHist := s.inHist.map BitVec.toInt
  outHist := s.outHist.map BitVec.toInt
  supplied := s.inputs.map BitVec.toInt

end Sys2Proof.Rule
end

