-- ==== Sys2Proof/Certificates/Slice0/Obligations.lean ====
section
/-! DEFINITION. The statements for the provers, each a `def Obligations.<Name> : Prop`. Each docstring names the rule of
spec/ it formalises. `s.mem.get a` is `Mem(a)` of `10_state.md` R14. -/

open Sys2Proof Sys2Proof.Machine

/-! ## Construction and Memory -/

/-- `10_state.md` R22. -/
def Obligations.ConstructionGivesTheResetState : Prop :=
  ∀ image : List Word,
    (construct image).mem.dense = image ∧
    (construct image).mem.overlay = [] ∧
    (∀ a, a < image.length → (construct image).mem.get a = image.getD a 0) ∧
    (∀ a, image.length ≤ a → (construct image).mem.get a = 0) ∧
    (construct image).pc = 0 ∧ (construct image).rb = 0 ∧ (construct image).status = .running ∧
    (construct image).fcause = 0 ∧ (construct image).finfo = 0 ∧
    (construct image).inHist = [] ∧ (construct image).outHist = []

/-- `State.Inv` holds after every construction of a legal image (`46_host_interface.md` R121), whatever the environment has
ready, and at `State.reset`. That `State.reset` is the construction of the empty image is the model's choice (log 8). -/
def Obligations.ConstructionMeetsTheInvariant : Prop :=
  State.reset = construct [] ∧ State.reset.Inv ∧
  ∀ (image inputs : List Word), image.length < 2 ^ 63 →
    State.Inv { construct image with inputs := inputs }

/-- Every step keeps `State.Inv`: Memory's canonical form (R12, R13) and what STATUS, FCAUSE, FINFO and `pc` say together
(R17, R18, R116, R140). -/
def Obligations.StepKeepsTheInvariant : Prop :=
  ∀ s t : State, s.Inv → step s = .next t → t.Inv

/-- `20_memory.md` R31. -/
def Obligations.MemReadReturnsTheAbstractContent : Prop :=
  ∀ (s : State) (a : Word), s.mem.wf = true →
    (a.toInt < 0 → memRead a s = .error (.negativeAddress a)) ∧
    (0 ≤ a.toInt → a.toNat < s.mem.dense.length → memRead a s = .ok (s.mem.dense.getD a.toNat 0)) ∧
    (0 ≤ a.toInt → s.mem.dense.length ≤ a.toNat →
      (∀ v, (a.toNat, v) ∈ s.mem.overlay → memRead a s = .ok v) ∧
      ((∀ v, (a.toNat, v) ∉ s.mem.overlay) → memRead a s = .ok 0))

/-- `20_memory.md` R32, with the effect on the two stores that R13 of `10_state.md` gives. The last clause, `m.wf = true`, is
the model's own canonical form (log 5): R13 and R32 let a write of 0 create an entry and never remove one. -/
def Obligations.MemWriteUpdatesExactlyOneCell : Prop :=
  ∀ (s : State) (a v : Word), s.mem.wf = true →
    (a.toInt < 0 → memWrite a v s = .error (.negativeAddress a)) ∧
    (0 ≤ a.toInt → ∃ m : Memory,
      memWrite a v s = .ok { s with mem := m } ∧
      m.get a.toNat = v ∧ (∀ b, b ≠ a.toNat → m.get b = s.mem.get b) ∧
      (a.toNat < s.mem.dense.length → m.dense = s.mem.dense.set a.toNat v ∧ m.overlay = s.mem.overlay) ∧
      (s.mem.dense.length ≤ a.toNat → m.dense = s.mem.dense) ∧
      m.wf = true)

/-- `20_memory.md` R34: L never moves; before any write to an address it reads its construction value, 0 from L on; after a
write and until the next one it reads the value written. -/
def Obligations.AddressesRetainTheirLastWrite : Prop :=
  ∀ (image : List Word) (before after : List (Nat × Word)) (a : Nat) (v : Word),
    image.length < 2 ^ 63 → a < 2 ^ 63 → (∀ w ∈ before, w.1 < 2 ^ 63) → (∀ w ∈ after, w.1 < 2 ^ 63 ∧ w.1 ≠ a) →
    ((construct image).mem.afterWrites after).get a = image.getD a 0 ∧
    ((construct image).mem.afterWrites (before ++ (a, v) :: after)).get a = v ∧
    ((construct image).mem.afterWrites (before ++ (a, v) :: after)).dense.length = image.length

/-- `10_state.md` R12: the length of the dense segment never changes in a run. -/
def Obligations.DenseLengthNeverChanges : Prop :=
  ∀ (n : Nat) (s t : State), Sys2Proof.core.run n s = .next t → t.mem.dense.length = s.mem.dense.length

/-- `10_state.md` R14: "the split into dense and overlay is an implementation structure that no program can observe". -/
def Obligations.DenseOverlaySplitIsUnobservable : Prop :=
  ∀ (n : Nat) (s₁ s₂ t₁ t₂ : State), s₁.mem.wf = true → s₂.mem.wf = true → s₁.sameContent s₂ →
    Sys2Proof.core.run n s₁ = .next t₁ → Sys2Proof.core.run n s₂ = .next t₂ → t₁.sameContent t₂

/-! ## Encoding -/

/-- `30_encoding.md` R61: each kind of illegal opcode word is rejected by its own name. The clauses exclude each other. -/
def Obligations.IllegalOpcodeWordsAreRejectedByName : Prop :=
  ∀ w : Word,
    (w.toInt < 0 → decodeOpcode w = .error (.invalidOpcode w)) ∧
    (0 ≤ w.toInt → ¬ Rule.inTable (w.toInt % 100) → decodeOpcode w = .error (.invalidOpcode w)) ∧
    (0 ≤ w.toInt → Rule.inTable (w.toInt % 100) → (∃ i ∈ Rule.params w.toInt, 3 ≤ Rule.digit w.toInt i) →
      decodeOpcode w = .error (.invalidParameterMode w)) ∧
    (0 ≤ w.toInt → Rule.inTable (w.toInt % 100) → (∀ i ∈ Rule.params w.toInt, Rule.digit w.toInt i < 3) →
      (∃ i ∈ Rule.params w.toInt, Rule.isWrite (w.toInt % 100) i ∧ Rule.digit w.toInt i = 1) →
      decodeOpcode w = .error (.invalidWriteTarget w))

/-- `30_encoding.md` R51, R53, R54, R57, R60: every other word is legal, and its operation and modes are its digits. -/
def Obligations.LegalOpcodeWordsDecodeByTheirDigits : Prop :=
  ∀ w : Word, 0 ≤ w.toInt → Rule.inTable (w.toInt % 100) → (∀ i ∈ Rule.params w.toInt, Rule.digit w.toInt i < 3) →
    (∀ i ∈ Rule.params w.toInt, Rule.isWrite (w.toInt % 100) i → Rule.digit w.toInt i ≠ 1) →
    ∃ o, decodeOpcode w = .ok o ∧ Op.ofCode (w.toInt % 100).toNat = some o.op ∧
      o.modes.length = Rule.nparams (w.toInt % 100) ∧
      ∀ i ∈ Rule.params w.toInt, o.mode i =
        (if Rule.digit w.toInt i = 0 then Mode.position else if Rule.digit w.toInt i = 1 then Mode.immediate else Mode.relative)

/-- `30_encoding.md` R55, with its three words. -/
def Obligations.ExcessDigitsHaveNoEffect : Prop :=
  (∀ (w : Word) (o : Opcode) (k : Nat), decodeOpcode w = .ok o →
    w.toNat + k * 10 ^ (2 + o.op.nparams) < 2 ^ 63 →
    decodeOpcode (BitVec.ofNat 64 (w.toNat + k * 10 ^ (2 + o.op.nparams))) = .ok o) ∧
  decodeOpcode 10099 = .ok ⟨.stop, []⟩ ∧
  decodeOpcode 1104 = .ok ⟨.output, [.immediate]⟩ ∧
  decodeOpcode 1101101 = .ok ⟨.add, [.immediate, .immediate, .position]⟩

/-- `30_encoding.md` R64: (decode, encode) is a retraction, every word with excess digits selects the same instruction, and
encode gives back canonical words only. -/
def Obligations.DecodeAndEncodeAreARetraction : Prop :=
  (∀ (i : Instr) (rest : List Word), i.wellFormed = true → decode (encode i ++ rest) = .ok (i, rest)) ∧
  (∀ (i : Instr) (k : Nat) (rest : List Word), i.wellFormed = true →
    i.opcodeWord.toNat + k * 10 ^ (2 + i.params.length) < 2 ^ 63 →
    decode (BitVec.ofNat 64 (i.opcodeWord.toNat + k * 10 ^ (2 + i.params.length)) :: i.params.map Param.raw ++ rest) =
      .ok (i, rest)) ∧
  (∀ (w : Word) (cells rest : List Word) (i : Instr), decode (w :: cells) = .ok (i, rest) →
    (encode i ++ rest = w :: cells ↔ w.toNat < 10 ^ (2 + i.params.length)))

/-- `30_encoding.md` R50, R58, R60: what the decoder accepts is well-formed, and takes as many cells as its operation code
says. -/
def Obligations.DecodedInstructionsAreWellFormed : Prop :=
  ∀ (w : Word) (cells rest : List Word) (i : Instr), decode (w :: cells) = .ok (i, rest) →
    i.wellFormed = true ∧ i.params.length = Rule.nparams (w.toInt % 100) ∧ i.code = (w.toInt % 100).toNat ∧
    cells = i.params.map Param.raw ++ rest

/-- Words of `95_test_vectors.md` section 2.1 and one of every other row, written out from `30_encoding.md` R62. -/
def Obligations.WordsOfTheSpecDecode : Prop :=
  decode [1002, 4, 3, 4] = .ok (.multiply ⟨.position, 4⟩ ⟨.immediate, 3⟩ ⟨.position, 4⟩, []) ∧
  decode [22201, 7, 8, 9] = .ok (.add ⟨.relative, 7⟩ ⟨.relative, 8⟩ ⟨.relative, 9⟩, []) ∧
  decode [3, 9] = .ok (.input ⟨.position, 9⟩, []) ∧
  decode [204, -1] = .ok (.output ⟨.relative, -1⟩, []) ∧
  decode [1105, 1, 4] = .ok (.jumpIfTrue ⟨.immediate, 1⟩ ⟨.immediate, 4⟩, []) ∧
  decode [1006, 101, 0] = .ok (.jumpIfFalse ⟨.position, 101⟩ ⟨.immediate, 0⟩, []) ∧
  decode [1107, -1, 0, 5] = .ok (.lessThan ⟨.immediate, -1⟩ ⟨.immediate, 0⟩ ⟨.position, 5⟩, []) ∧
  decode [1008, 100, 16, 101] = .ok (.equalTo ⟨.position, 100⟩ ⟨.immediate, 16⟩ ⟨.position, 101⟩, []) ∧
  decode [109, 1] = .ok (.adjustRelativeBase ⟨.immediate, 1⟩, []) ∧
  decode [99] = .ok (.stop, [])

/-! ## Operands and arithmetic -/

/-- `40_step_and_operands.md` R74. -/
def Obligations.ReadParameterValue : Prop :=
  ∀ (p : Param) (s : State),
    (p.mode = .immediate → rd p s = .ok p.raw) ∧
    (p.mode = .position →
      (0 ≤ p.raw.toInt → rd p s = .ok (s.mem.get p.raw.toNat)) ∧
      (p.raw.toInt < 0 → rd p s = .error (.negativeAddress p.raw))) ∧
    (p.mode = .relative →
      (0 ≤ (wrap64 (s.rb.toInt + p.raw.toInt)).toInt →
        rd p s = .ok (s.mem.get (wrap64 (s.rb.toInt + p.raw.toInt)).toNat)) ∧
      ((wrap64 (s.rb.toInt + p.raw.toInt)).toInt < 0 →
        rd p s = .error (.negativeAddress (wrap64 (s.rb.toInt + p.raw.toInt)))))

/-- `40_step_and_operands.md` R75. The last clause says that the cell a write parameter names is not read. -/
def Obligations.WriteParameterAddress : Prop :=
  ∀ (p : Param) (s : State),
    (p.mode = .immediate → wa p s = .error (.invalidWriteTarget (s.mem.get s.pc.toNat))) ∧
    (p.mode = .position →
      (0 ≤ p.raw.toInt → wa p s = .ok p.raw) ∧
      (p.raw.toInt < 0 → wa p s = .error (.negativeAddress p.raw))) ∧
    (p.mode = .relative →
      (0 ≤ (wrap64 (s.rb.toInt + p.raw.toInt)).toInt → wa p s = .ok (wrap64 (s.rb.toInt + p.raw.toInt))) ∧
      ((wrap64 (s.rb.toInt + p.raw.toInt)).toInt < 0 →
        wa p s = .error (.negativeAddress (wrap64 (s.rb.toInt + p.raw.toInt))))) ∧
    (p.mode ≠ .immediate → ∀ m : Memory, wa p { s with mem := m } = wa p s) ∧
    (∀ a v : Word, wa p s = .ok a → ∃ t, memWrite a v s = .ok t)

/-- `40_step_and_operands.md` R77: the three address adders and the accumulator adder wrap. -/
def Obligations.AddersWrapModulo64Bits : Prop :=
  (∀ (s : State) (i : Nat), i ≤ 4 → (paramAddress s i).toInt = Rule.wrap (s.pc.toInt + i)) ∧
  (∀ (s : State) (width : Nat), width ≤ 4 → (advance width s).pc.toInt = Rule.wrap (s.pc.toInt + width)) ∧
  (∀ (s : State) (p : Param), p.mode = .relative →
    (effectiveAddress p s).toInt = Rule.wrap (s.rb.toInt + p.raw.toInt)) ∧
  (∀ (a : Param) (s t : State) (v : Word), rd a s = .ok v → exec (.adjustRelativeBase a) s = .next t →
    t.rb.toInt = Rule.wrap (s.rb.toInt + v.toInt)) ∧
  (∀ (s : State) (i : Nat), i ≤ 4 → 0 ≤ s.pc.toInt →
    ((paramAddress s i).toInt < 0 ↔ 2 ^ 63 - 1 - (i : Int) < s.pc.toInt)) ∧
  (∀ (s : State) (raw : Word), s.rb.toInt = -2 ^ 63 → raw = -1 →
    wa ⟨.relative, raw⟩ s = .ok 9223372036854775807)

/-- `41_arithmetic.md` R92: exact in range, the low 64 bits otherwise; the sign rules and corners it lists. -/
def Obligations.AddAndMultiplyWrap : Prop :=
  (∀ x y : Word,
    (add64 x y).toInt = Rule.wrap (x.toInt + y.toInt) ∧ (mul64 x y).toInt = Rule.wrap (x.toInt * y.toInt)) ∧
  (∀ x y : Word, -2 ^ 63 ≤ x.toInt + y.toInt → x.toInt + y.toInt < 2 ^ 63 →
    (add64 x y).toInt = x.toInt + y.toInt) ∧
  (∀ x y : Word, -2 ^ 63 ≤ x.toInt * y.toInt → x.toInt * y.toInt < 2 ^ 63 →
    (mul64 x y).toInt = x.toInt * y.toInt) ∧
  (∀ x : Word, add64 x 0 = x ∧ mul64 x 0 = 0 ∧ mul64 x 1 = x ∧
    (x.toInt ≠ -2 ^ 63 → (mul64 x (-1)).toInt = -x.toInt)) ∧
  (mul64 (BitVec.ofInt 64 (-2 ^ 63)) (-1)).toInt = -2 ^ 63 ∧
  (add64 (BitVec.ofInt 64 (2 ^ 63 - 1)) 1).toInt = -2 ^ 63 ∧
  (add64 (BitVec.ofInt 64 (-2 ^ 63)) (-1)).toInt = 2 ^ 63 - 1

/-- `40_step_and_operands.md` R78: a parameter that does not resolve faults, in parameter order, whatever the instruction
would do with its value; for a jump, also the target of a jump that is not taken. -/
def Obligations.EveryParameterIsResolvedFirst : Prop :=
  (∀ mk ∈ [Instr.add, Instr.multiply, Instr.lessThan, Instr.equalTo], ∀ (a b dst : Param) (s : State),
    dst.mode ≠ .immediate →
    (∀ f, rd a s = .error f → exec (mk a b dst) s = raise f s) ∧
    (∀ f v, rd a s = .ok v → rd b s = .error f → exec (mk a b dst) s = raise f s) ∧
    (∀ f v w, rd a s = .ok v → rd b s = .ok w → wa dst s = .error f → exec (mk a b dst) s = raise f s)) ∧
  (∀ mk ∈ [Instr.jumpIfTrue, Instr.jumpIfFalse], ∀ (cond target : Param) (s : State),
    (∀ f, rd cond s = .error f → exec (mk cond target) s = raise f s) ∧
    (∀ f v, rd cond s = .ok v → rd target s = .error f → exec (mk cond target) s = raise f s)) ∧
  (∀ mk ∈ [Instr.output, Instr.adjustRelativeBase], ∀ (a : Param) (s : State) (f : Fault),
    rd a s = .error f → exec (mk a) s = raise f s) ∧
  (∀ (dst : Param) (s : State) (f : Fault), wa dst s = .error f → exec (.input dst) s = raise f s) ∧
  (step (construct [5, 4, -7, 99, 0]) = raise (.negativeAddress (-7)) (construct [5, 4, -7, 99, 0]))

/-! ## What each instruction does -/

/-- `41_arithmetic.md` R90: Add completes, and its whole next state. -/
def Obligations.AddWritesTheSum : Prop :=
  ∀ (a b dst : Param) (s : State) (v1 v2 d : Word),
    rd a s = .ok v1 → rd b s = .ok v2 → wa dst s = .ok d →
    exec (.add a b dst) s = .next { s with
      mem := s.mem.set d.toNat (wrap64 (v1.toInt + v2.toInt)), pc := wrap64 (s.pc.toInt + 4) }

/-- `41_arithmetic.md` R91: Multiply completes, and its whole next state. -/
def Obligations.MultiplyWritesTheProduct : Prop :=
  ∀ (a b dst : Param) (s : State) (v1 v2 d : Word),
    rd a s = .ok v1 → rd b s = .ok v2 → wa dst s = .ok d →
    exec (.multiply a b dst) s = .next { s with
      mem := s.mem.set d.toNat (wrap64 (v1.toInt * v2.toInt)), pc := wrap64 (s.pc.toInt + 4) }

/-- `42_io.md` R95: Input completes when the environment supplies a value, and its whole next state. -/
def Obligations.InputStoresTheNextValue : Prop :=
  ∀ (dst : Param) (s : State) (d v : Word) (rest : List Word),
    wa dst s = .ok d → s.inputs = v :: rest →
    ∃ t, exec (.input dst) s = .next t ∧ t.inHist = s.inHist ++ [v] ∧ t.outHist = s.outHist ∧
      t = { s with mem := s.mem.set d.toNat v, pc := wrap64 (s.pc.toInt + 2), io := s.io ++ [.input v], inputs := rest }

/-- `42_io.md` R100: without a value the Input step does not happen; once a value is supplied it completes with that value.
That a call of `step` then answers the same state, any number of times, is the model's reading (log 4), and the values the
environment has ready and `supply` are the model's own (log 3). -/
def Obligations.InputHoldsUntilAValueIsSupplied : Prop :=
  ∀ (dst : Param) (s : State) (d : Word),
    s.status = .running → fetch s = .ok (.input dst) → wa dst s = .ok d → s.inputs = [] →
    (∀ n, Sys2Proof.core.run n s = .next s) ∧
    ∀ v, step (supply v s) = .next { s with
      mem := s.mem.set d.toNat v, pc := wrap64 (s.pc.toInt + 2), io := s.io ++ [.input v] }

/-- `42_io.md` R96: Output completes, and its whole next state. -/
def Obligations.OutputEmitsTheValue : Prop :=
  ∀ (a : Param) (s : State) (v : Word), rd a s = .ok v →
    ∃ t, exec (.output a) s = .next t ∧ t.outHist = s.outHist ++ [v] ∧ t.inHist = s.inHist ∧
      t = { s with pc := wrap64 (s.pc.toInt + 2), io := s.io ++ [.output v] }

/-- `43_jumps.md` R105: JumpIfTrue completes, and its whole next state. -/
def Obligations.JumpIfTrueSetsPc : Prop :=
  ∀ (cond target : Param) (s : State) (v1 v2 : Word), rd cond s = .ok v1 → rd target s = .ok v2 →
    exec (.jumpIfTrue cond target) s = .next { s with
      pc := if v1.toInt ≠ 0 then v2 else wrap64 (s.pc.toInt + 3) }

/-- `43_jumps.md` R106: JumpIfFalse completes, and its whole next state. -/
def Obligations.JumpIfFalseSetsPc : Prop :=
  ∀ (cond target : Param) (s : State) (v1 v2 : Word), rd cond s = .ok v1 → rd target s = .ok v2 →
    exec (.jumpIfFalse cond target) s = .next { s with
      pc := if v1.toInt = 0 then v2 else wrap64 (s.pc.toInt + 3) }

/-- `44_compare.md` R110: LessThan completes, and its whole next state. -/
def Obligations.LessThanWritesOneOrZero : Prop :=
  ∀ (a b dst : Param) (s : State) (v1 v2 d : Word),
    rd a s = .ok v1 → rd b s = .ok v2 → wa dst s = .ok d →
    exec (.lessThan a b dst) s = .next { s with
      mem := s.mem.set d.toNat (if v1.toInt < v2.toInt then 1 else 0), pc := wrap64 (s.pc.toInt + 4) }

/-- `44_compare.md` R111: EqualTo completes, and its whole next state. -/
def Obligations.EqualToWritesOneOrZero : Prop :=
  ∀ (a b dst : Param) (s : State) (v1 v2 d : Word),
    rd a s = .ok v1 → rd b s = .ok v2 → wa dst s = .ok d →
    exec (.equalTo a b dst) s = .next { s with
      mem := s.mem.set d.toNat (if v1.toInt = v2.toInt then 1 else 0), pc := wrap64 (s.pc.toInt + 4) }

/-- `45_relbase_stop.md` R115: AdjustRelativeBase completes, and its whole next state. -/
def Obligations.AdjustRelativeBaseAddsToRb : Prop :=
  ∀ (a : Param) (s : State) (v : Word), rd a s = .ok v →
    exec (.adjustRelativeBase a) s = .next { s with
      rb := wrap64 (s.rb.toInt + v.toInt), pc := wrap64 (s.pc.toInt + 2) }

/-- `45_relbase_stop.md` R116: Stop completes in every state, and its whole next state. A step at a word that selects Stop,
with excess digits or at the last address too, runs it, and no further step changes anything. -/
def Obligations.StopHalts : Prop :=
  (∀ s : State, exec .stop s = .next { s with status := .halted }) ∧
  (∀ (s : State) (n : Nat), s.status = .running → legalAddress s.pc → isStopWord (s.mem.get s.pc.toNat) →
    Sys2Proof.core.run (n + 1) s = .next { s with status := .halted })

/-- An Immediate write parameter, which no decoded instruction has, faults before any other check of `exec` (`30_encoding.md`
R61 (d), stage 4 of R76). The value of FINFO is the model's reading (log 11). -/
def Obligations.ImmediateWriteTargetFaults : Prop :=
  ∀ (i : Instr) (s : State), i.wellFormed = false →
    exec i s = raise (.invalidWriteTarget (s.mem.get s.pc.toNat)) s

/-! ## Frames -/

/-- The storing forms Add, Multiply, LessThan, EqualTo and Input leave every cell but the one at `wa dst s` as it was, and
`rb`, `out_hist` and, when they complete, STATUS, FCAUSE and FINFO (R32, R80). -/
def Obligations.StoringInstructionsChangeOneCell : Prop :=
  ∀ (i : Instr) (dst : Param) (s t : State),
    (∃ a b, i = .add a b dst ∨ i = .multiply a b dst ∨ i = .lessThan a b dst ∨ i = .equalTo a b dst) ∨ i = .input dst →
    exec i s = .next t →
    (∀ d, wa dst s = .ok d → ∀ b, b ≠ d.toNat → t.mem.get b = s.mem.get b) ∧
    (∀ f, wa dst s = .error f → t.mem = s.mem) ∧
    t.mem.dense.length = s.mem.dense.length ∧
    t.rb = s.rb ∧ t.outHist = s.outHist ∧
    (i ≠ .input dst → t.io = s.io ∧ t.inputs = s.inputs) ∧
    (t.status ≠ .faulted → t.status = s.status ∧ t.fcause = s.fcause ∧ t.finfo = s.finfo)

/-- The forms that store nothing leave all of Memory as it was; each changes nothing but what its rule names (R96, R105,
R106, R115, R116). -/
def Obligations.NonStoringInstructionsLeaveMemory : Prop :=
  ∀ (i : Instr) (s t : State),
    ((∃ a, i = .output a) ∨ (∃ c d, i = .jumpIfTrue c d ∨ i = .jumpIfFalse c d) ∨ (∃ a, i = .adjustRelativeBase a) ∨
      i = .stop) →
    exec i s = .next t →
    (∀ a, t.mem.get a = s.mem.get a) ∧ t.mem = s.mem ∧ t.inputs = s.inputs ∧ t.inHist = s.inHist ∧
    ((∀ a, i ≠ .output a) → t.io = s.io) ∧
    ((∀ a, i ≠ .adjustRelativeBase a) → t.rb = s.rb) ∧
    (t.status ≠ .faulted → t.fcause = s.fcause ∧ t.finfo = s.finfo) ∧
    (t.status ≠ .faulted → i ≠ .stop → t.status = s.status) ∧
    (i = .stop → t.pc = s.pc)

/-! ## The step -/

/-- `40_step_and_operands.md` R70, R76: when the cells at `pc` decode to an instruction that ends inside the address space,
the step is `exec` of it. The cells read may have excess digits, and cells beyond the instruction do not matter. -/
def Obligations.StepRunsTheDecodedInstruction : Prop :=
  ∀ (s : State) (i : Instr) (rest : List Word), s.status = .running → 0 ≤ s.pc.toInt →
    s.pc.toInt + i.params.length < 2 ^ 63 →
    decode ((List.range 4).map fun k => s.mem.get (s.pc.toNat + k)) = .ok (i, rest) →
    step s = exec i s

/-- `40_step_and_operands.md` R82, as the model renders it: where no step is performed `step` answers the same state (log 2),
in Running it answers some next state (for a fault too, log 1), and for an Input that waits, where R82 has no step, it answers
the same state (log 4). -/
def Obligations.NoStepUnlessRunning : Prop :=
  (∀ (s : State) (n : Nat), s.status ≠ .running → Sys2Proof.core.run n s = .next s) ∧
  (∀ s : State, s.status = .running → ∃ t, step s = .next t) ∧
  (∀ s : State, s.status = .running → s.waits = true → step s = .next s)

/-- The model's choice of outcome, no rule of the spec: every instruction, well-formed or not, and every step answers a next
state, for a fault (log 1, where R141 of `60_exceptions.md` gives the state but calls it a fault outcome), in an ended machine
(log 2) and for an Input that waits (log 4) as well. -/
def Obligations.EveryStepAnswersANextState : Prop :=
  (∀ (i : Instr) (s : State), ∃ t, exec i s = .next t) ∧
  (∀ (n : Nat) (s : State), ∃ t, Sys2Proof.core.run n s = .next t)

/-- `40_step_and_operands.md` R76, with R79 and the rule of each instruction: a step of the machine is the step of the rule,
read over the integers. Where R82 or `42_io.md` R100 has no step, both keep the state: the model's reading (logs 2, 4). -/
def Obligations.StepIsTheStepOfTheRule : Prop :=
  ∀ s : State, s.mem.wf = true → ∃ t, step s = .next t ∧ Rule.view t = Rule.step (Rule.view s)

/-- `60_exceptions.md` R143, R141 and `40_step_and_operands.md` R80: the step reports the first check that fails in the order
of the stages, and the faulting step changes STATUS, FCAUSE and FINFO alone. -/
def Obligations.FirstFailedCheckIsReported : Prop :=
  ∀ s : State, s.status = .running →
    (∀ code info, Rule.firstFault (Rule.view s) = some (code, info) →
      step s = .next { s with status := .faulted, fcause := BitVec.ofNat 3 code, finfo := BitVec.ofInt 64 info }) ∧
    (Rule.firstFault (Rule.view s) = none → ∀ t, step s = .next t → t.status ≠ .faulted)

/-- `60_exceptions.md` R140: the code and the recorded value of each fault. -/
def Obligations.FaultEntryRecordsCodeAndValue : Prop :=
  ∀ (s : State) (x : Word),
    raise (.invalidOpcode x) s = .next { s with status := .faulted, fcause := 1, finfo := x } ∧
    raise (.invalidParameterMode x) s = .next { s with status := .faulted, fcause := 2, finfo := x } ∧
    raise (.invalidWriteTarget x) s = .next { s with status := .faulted, fcause := 3, finfo := x } ∧
    raise (.negativeAddress x) s = .next { s with status := .faulted, fcause := 4, finfo := x }

/-- `40_step_and_operands.md` R80: a step that ends in Faulted has changed nothing but STATUS, FCAUSE and FINFO, and made no
I/O call. -/
def Obligations.FaultingStepHasNoEffect : Prop :=
  ∀ s t : State, s.status = .running → step s = .next t → t.status = .faulted →
    t = { s with status := .faulted, fcause := t.fcause, finfo := t.finfo } ∧
    1 ≤ t.fcause.toNat ∧ t.fcause.toNat ≤ 4

/-- `60_exceptions.md` R144: whether a step faults, and how, does not depend on what the environment supplies. -/
def Obligations.FaultsDoNotDependOnTheInput : Prop :=
  ∀ (s t : State) (inputs : List Word), s.status = .running → step s = .next t → t.status = .faulted →
    step { s with inputs := inputs } = .next { t with inputs := inputs }

/-- `10_state.md` R16: `rb` is mutated only by AdjustRelativeBase. -/
def Obligations.OnlyAdjustRelativeBaseChangesRb : Prop :=
  ∀ s t : State, step s = .next t → t.rb ≠ s.rb →
    s.status = .running ∧ 0 ≤ s.pc.toInt ∧ 0 ≤ (s.mem.get s.pc.toNat).toInt ∧
      (s.mem.get s.pc.toNat).toInt % 100 = 9

/-- `70_reset_and_hazards.md` R171, `45_relbase_stop.md` R116: a run halts exactly when a step executes a Stop, and then `pc`
holds its address. -/
def Obligations.HaltedExactlyByStop : Prop :=
  ∀ s t : State, s.status = .running → step s = .next t →
    (t.status = .halted ↔ legalAddress s.pc ∧ isStopWord (s.mem.get s.pc.toNat)) ∧
    (t.status = .halted → t = { s with status := .halted })

/-- `43_jumps.md` R107: only JumpIfTrue and JumpIfFalse set `pc` to anything but the next sequential address. A step that
leaves `pc` as it is has faulted, halted or held, or was a jump to itself. -/
def Obligations.OnlyJumpsLeaveSequentialOrder : Prop :=
  ∀ s t : State, s.status = .running → step s = .next t → t.pc ≠ s.pc →
    ((s.mem.get s.pc.toNat).toInt % 100 = 5 ∨ (s.mem.get s.pc.toNat).toInt % 100 = 6) ∨
    t.pc.toInt = Rule.wrap (s.pc.toInt + 1 + Rule.nparams ((s.mem.get s.pc.toNat).toInt % 100))

/-- `43_jumps.md` R107: a taken jump with a negative target completes in Running, and the next step's fetch raises
NegativeAddress. -/
def Obligations.NegativeJumpTargetFaultsAtTheNextFetch : Prop :=
  ∀ (cond target : Param) (s : State) (v1 v2 : Word), s.status = .running →
    rd cond s = .ok v1 → rd target s = .ok v2 → v2.toInt < 0 →
    (v1 ≠ 0 → exec (.jumpIfTrue cond target) s = .next { s with pc := v2 }) ∧
    (v1 = 0 → exec (.jumpIfFalse cond target) s = .next { s with pc := v2 }) ∧
    step { s with pc := v2 } = .next { s with pc := v2, status := .faulted, fcause := 4, finfo := v2 }

/-- `20_memory.md` R43: the cell any storing instruction writes is what the next step fetches, as its opcode word or as one of
its raw parameters, whatever the value: an illegal word faults, a legal one is executed with the raw cells that follow it, a
parameter cell is the parameter's raw value, and the word of a Stop halts. -/
def Obligations.StoredCellIsExecutedNext : Prop :=
  ∀ (s : State) (i : Instr) (dst : Param) (d v : Word), s.mem.wf = true → s.status = .running →
    fetch s = .ok i → wa dst s = .ok d →
    ((∃ a b v1 v2, rd a s = .ok v1 ∧ rd b s = .ok v2 ∧
        ((i = .add a b dst ∧ v = wrap64 (v1.toInt + v2.toInt)) ∨
         (i = .multiply a b dst ∧ v = wrap64 (v1.toInt * v2.toInt)) ∨
         (i = .lessThan a b dst ∧ v = if v1.toInt < v2.toInt then 1 else 0) ∨
         (i = .equalTo a b dst ∧ v = if v1.toInt = v2.toInt then 1 else 0))) ∨
      (i = .input dst ∧ ∃ rest, s.inputs = v :: rest)) →
    ∃ t, step s = .next t ∧ t.status = .running ∧ t.pc = wrap64 (s.pc.toInt + 1 + i.params.length) ∧
      t.mem.get d.toNat = v ∧
      (t.pc = d →
        (∀ e, decodeOpcode v = .error e → step t = raise (decodeFault v e) t) ∧
        (∀ o f, decodeOpcode v = .ok o → fetchRaws t o.op.paramIndices = .error f → step t = raise f t) ∧
        (∀ o raws, decodeOpcode v = .ok o → fetchRaws t o.op.paramIndices = .ok raws → step t = exec (o.build raws) t) ∧
        (isStopWord v → Sys2Proof.core.run 2 s = .next { t with status := .halted })) ∧
      (∀ j k p, fetch t = .ok j → j.params[k]? = some p → paramAddress t (k + 1) = d → p.raw = v)

/-! ## Input, output and determinism -/

/-- `42_io.md` R101, R102: a step adds at most one call to the one sequence of I/O calls, at its end; an input call takes
exactly the value the environment had next, an output call takes none. -/
def Obligations.StepMakesAtMostOneIoCall : Prop :=
  ∀ s t : State, step s = .next t →
    (t.io = s.io ∧ t.inputs = s.inputs) ∨
    (∃ v, t.io = s.io ++ [.input v] ∧ s.inputs = v :: t.inputs ∧ t.inHist = s.inHist ++ [v] ∧ t.outHist = s.outHist ∧
      (s.mem.get s.pc.toNat).toInt % 100 = 3) ∨
    (∃ v, t.io = s.io ++ [.output v] ∧ t.inputs = s.inputs ∧ t.outHist = s.outHist ++ [v] ∧ t.inHist = s.inHist ∧
      (s.mem.get s.pc.toNat).toInt % 100 = 4)

/-- `40_step_and_operands.md` R81, for every two states that agree but for the values each environment has ready (log 3), as
two constructions from one image do. One step, and any number of calls of `step` without a supply between them: if both have
received the same input values, the states agree again, and the outputs are the same. -/
def Obligations.RunsAreDeterminedByImageAndInputs : Prop :=
  (∀ s₁ s₂ t₁ t₂ : State, s₁.sameButInputs s₂ → step s₁ = .next t₁ → step s₂ = .next t₂ → t₁.inHist = t₂.inHist →
    t₁.sameButInputs t₂ ∧ t₁.outHist = t₂.outHist) ∧
  (∀ (n : Nat) (s₁ s₂ t₁ t₂ : State), s₁.sameButInputs s₂ →
    Sys2Proof.core.run n s₁ = .next t₁ → Sys2Proof.core.run n s₂ = .next t₂ → t₁.inHist = t₂.inHist →
    t₁.sameButInputs t₂ ∧ t₁.outHist = t₂.outHist) ∧
  (∀ image in₁ in₂ : List Word,
    State.sameButInputs { construct image with inputs := in₁ } { construct image with inputs := in₂ })

/-- `10_state.md` R24: the I/O history is no state of the hardware: no step depends on it. -/
def Obligations.HistoryDoesNotAffectTheRun : Prop :=
  ∀ (n : Nat) (s t : State) (earlier : List IoEvent), Sys2Proof.core.run n s = .next t →
    Sys2Proof.core.run n { s with io := earlier ++ s.io } = .next { t with io := earlier ++ t.io }

/-- `46_host_interface.md` R123, R124 and `10_state.md` R17: what the host may inspect and when, and what it reads. That STATUS,
FCAUSE and FINFO are read while Running too is the model's choice between R124 and `60_exceptions.md` R152 (log 16); the last
two clauses are the port as R152 words it. -/
def Obligations.HostInspectsOnlyAfterTheRun : Prop :=
  ∀ (s : State) (a : Nat) (i : Fin 2),
    (s.status = .running → inspect a s = none ∧ inspectRegister i s = none ∧ (readStatus s).status = 0) ∧
    (s.status = .halted ∨ s.status = .faulted →
      (a < 2 ^ 63 → inspect a s = some (s.mem.get a)) ∧
      inspectRegister 0 s = some s.pc ∧ inspectRegister 1 s = some s.rb) ∧
    (s.status = .halted → (readStatus s).status = 1) ∧
    (s.status = .faulted → (readStatus s).status = 2) ∧
    (readStatus s).fcause = s.fcause ∧ (readStatus s).finfo = s.finfo ∧
    (s.status = .running → readStatusOutsideRun s = none) ∧
    (s.status = .halted ∨ s.status = .faulted → readStatusOutsideRun s = some (readStatus s))

/-- `40_step_and_operands.md` R81 and `42_io.md` R101: the same where each environment supplies values between steps at times
of its own, as one that reacts to outputs does. From states that agree but for the values ready, after the same number of
PERFORMED steps and with the same input values received, the states agree but for the values ready, and the outputs are the
same. The moves and the count of performed steps are the model's own (logs 2, 3, 4). -/
def Obligations.RunsWithSuppliesAreDetermined : Prop :=
  ∀ (moves₁ moves₂ : List Move) (s₁ s₂ t₁ t₂ : State), s₁.sameButInputs s₂ →
    playMoves moves₁ s₁ = .next t₁ → playMoves moves₂ s₂ = .next t₂ →
    performedSteps moves₁ s₁ = performedSteps moves₂ s₂ → t₁.inHist = t₂.inHist →
    t₁.sameButInputs t₂ ∧ t₁.outHist = t₂.outHist
end

