-- ==== Sys2Proof/Laws/Decode.lean ====
section
/-! SUPPORT. Everything the decoder can answer (`30_encoding.md` R51 to R61), and what it takes from the cells. -/

namespace Sys2Proof

/-- R57: the code of an operation. -/
def Op.code : Op → Nat
  | .add => 1
  | .multiply => 2
  | .input => 3
  | .output => 4
  | .jumpIfTrue => 5
  | .jumpIfFalse => 6
  | .lessThan => 7
  | .equalTo => 8
  | .adjustRelativeBase => 9
  | .stop => 99

theorem Op.ofCode_eq_some {n : Nat} {op : Op} : Op.ofCode n = some op ↔ n = op.code := by
  constructor
  · intro h
    simp only [Op.ofCode] at h
    split at h <;> first | (cases h; rfl) | (cases h)
  · rintro rfl
    cases op <;> rfl

theorem Op.ofCode_eq_none {n : Nat} : Op.ofCode n = none ↔ ∀ op : Op, n ≠ op.code := by
  constructor
  · rintro h op rfl
    simp [Op.ofCode_eq_some.mpr rfl] at h
  · intro h
    cases hn : Op.ofCode n with
    | none => rfl
    | some op => exact absurd (Op.ofCode_eq_some.mp hn) (h op)

theorem Mode.ofDigit_eq_some {d : Nat} {m : Mode} : Mode.ofDigit d = some m ↔ d = m.digit := by
  constructor
  · intro h
    simp only [Mode.ofDigit] at h
    split at h <;> first | (cases h; rfl) | (cases h)
  · rintro rfl
    cases m <;> rfl

theorem Mode.ofDigit_eq_none {d : Nat} : Mode.ofDigit d = none ↔ 3 ≤ d := by
  rcases d with _ | _ | _ | d <;> simp [Mode.ofDigit]

theorem Mode.digit_injective {m m' : Mode} (h : m.digit = m'.digit) : m = m' := by
  cases m <;> cases m' <;> simp_all [Mode.digit]

theorem Mode.digit_lt (m : Mode) : m.digit < 3 := by
  cases m <;> decide

/-- R54: the listed modes are those whose digits stand in the opcode word. -/
theorem modesOf_eq_some {md : Nat} {is : List Nat} {ms : List Mode} :
    modesOf md is = some ms ↔ is.map (modeDigit md) = ms.map Mode.digit := by
  induction is generalizing ms with
  | nil => simp [modesOf, eq_comm]
  | cons i is ih =>
    simp only [modesOf, List.map_cons]
    constructor
    · intro h
      split at h
      · next m ms' hm hms =>
        obtain rfl := Option.some.inj h
        rw [Mode.ofDigit_eq_some] at hm
        simp [hm, ih.mp hms]
      · cases h
    · intro h
      cases ms with
      | nil => simp at h
      | cons m ms' =>
        simp only [List.map_cons, List.cons.injEq] at h
        rw [Mode.ofDigit_eq_some.mpr h.1, ih.mpr h.2]

theorem modesOf_eq_none {md : Nat} {is : List Nat} : modesOf md is = none ↔ ∃ i ∈ is, 3 ≤ modeDigit md i := by
  induction is with
  | nil => simp [modesOf]
  | cons i is ih =>
    simp only [modesOf, List.mem_cons, exists_eq_or_imp, ← ih]
    rw [← Mode.ofDigit_eq_none]
    cases Mode.ofDigit (modeDigit md i) <;> cases modesOf md is <;> simp

/-- Everything a decoded opcode word says. -/
theorem decodeOpcode_eq_ok {w : Word} {o : Opcode} :
    decodeOpcode w = .ok o ↔ 0 ≤ w.toInt ∧ w.toNat % 100 = o.op.code ∧
      o.op.paramIndices.map (modeDigit (w.toNat / 100)) = o.modes.map Mode.digit ∧ o.writesImmediate = false := by
  simp only [decodeOpcode, ← Op.ofCode_eq_some, ← modesOf_eq_some]
  split_ifs with hneg
  · simp; omega
  · cases hop : Op.ofCode (w.toNat % 100) with
    | none => simp
    | some op =>
      cases hms : modesOf (w.toNat / 100) op.paramIndices with
      | none =>
        simp only [hms, reduceCtorEq, Option.some.injEq, false_iff, not_and]
        rintro - rfl h
        simp [hms] at h
      | some ms =>
        simp only [hms, Option.some.injEq]
        split_ifs with hw
        · simp only [false_iff, not_and, Bool.not_eq_false]
          rintro - rfl h
          rw [hms] at h
          obtain rfl := Option.some.inj h
          exact hw
        · simp only [Except.ok.injEq]
          constructor
          · rintro rfl
            exact ⟨by omega, rfl, hms, by simpa using hw⟩
          · rintro ⟨-, rfl, h, -⟩
            rw [hms] at h
            obtain rfl := Option.some.inj h
            rfl

/-- Every fault of the decoder carries the opcode word, and the decoder of an opcode word never answers `truncated`. -/
theorem decodeOpcode_eq_error {w : Word} {e : DecodeError} (h : decodeOpcode w = .error e) :
    e = .invalidOpcode w ∨ e = .invalidParameterMode w ∨ e = .invalidWriteTarget w := by
  simp only [decodeOpcode] at h
  split_ifs at h with h1
  · exact .inl (Except.error.inj h).symm
  · split at h
    · exact .inl (Except.error.inj h).symm
    · split at h
      · exact .inr (.inl (Except.error.inj h).symm)
      · split_ifs at h
        exact .inr (.inr (Except.error.inj h).symm)

theorem Op.paramIndices_length (op : Op) : op.paramIndices.length = op.nparams := by
  simp [Op.paramIndices]

theorem decodeOpcode_modes_length {w : Word} {o : Opcode} (h : decodeOpcode w = .ok o) :
    o.modes.length = o.op.nparams := by
  have := congrArg List.length (decodeOpcode_eq_ok.mp h).2.2.1
  simpa [Op.paramIndices_length, eq_comm] using this

@[simp] theorem Opcode.build_code (o : Opcode) (raws : List Word) : (o.build raws).code = o.op.code := by
  cases h : o.op <;> simp [Opcode.build, h, Instr.code, Op.code]

theorem Opcode.build_params (o : Opcode) (raws : List Word) :
    (o.build raws).params = o.op.paramIndices.map (o.param raws) := by
  cases h : o.op <;> simp [Opcode.build, h, Instr.params, Op.paramIndices, Op.nparams, List.range_succ]

@[simp] theorem Opcode.build_params_length (o : Opcode) (raws : List Word) :
    (o.build raws).params.length = o.op.nparams := by
  simp [Opcode.build_params, Op.paramIndices_length]

theorem Opcode.build_wellFormed (o : Opcode) (raws : List Word) :
    (o.build raws).wellFormed = !o.writesImmediate := by
  cases h : o.op <;>
    simp [Opcode.build, h, Instr.wellFormed, Opcode.writesImmediate, Op.writeParam, Param.writable, Opcode.param, bne]

theorem decode_eq_ok {w : Word} {cells rest : List Word} {i : Instr} :
    decode (w :: cells) = .ok (i, rest) ↔ ∃ o, decodeOpcode w = .ok o ∧ o.op.nparams ≤ cells.length ∧
      i = o.build (cells.take o.op.nparams) ∧ rest = cells.drop o.op.nparams := by
  simp only [decode]
  cases h : decodeOpcode w with
  | error e => simp
  | ok o =>
    simp only [Except.ok.injEq, exists_eq_left']
    split_ifs with hl
    · simp; omega
    · simp only [Except.ok.injEq, Prod.mk.injEq]
      constructor
      · rintro ⟨rfl, rfl⟩; exact ⟨by omega, rfl, rfl⟩
      · rintro ⟨-, rfl, rfl⟩; exact ⟨rfl, rfl⟩

end Sys2Proof
end

