-- ==== Sys2Proof/Laws/State.lean ====
section
/-! SUPPORT. What each update of State does to each field, and the views of the I/O history. -/

namespace Sys2Proof.Machine

@[simp] theorem setPc_mem (target : Word) (s : State) : (setPc target s).mem = s.mem := rfl
@[simp] theorem setPc_pc (target : Word) (s : State) : (setPc target s).pc = target := rfl
@[simp] theorem setPc_rb (target : Word) (s : State) : (setPc target s).rb = s.rb := rfl
@[simp] theorem setPc_status (target : Word) (s : State) : (setPc target s).status = s.status := rfl
@[simp] theorem setPc_fcause (target : Word) (s : State) : (setPc target s).fcause = s.fcause := rfl
@[simp] theorem setPc_finfo (target : Word) (s : State) : (setPc target s).finfo = s.finfo := rfl
@[simp] theorem setPc_io (target : Word) (s : State) : (setPc target s).io = s.io := rfl
@[simp] theorem setPc_inputs (target : Word) (s : State) : (setPc target s).inputs = s.inputs := rfl

@[simp] theorem setRb_mem (v : Word) (s : State) : (setRb v s).mem = s.mem := rfl
@[simp] theorem setRb_pc (v : Word) (s : State) : (setRb v s).pc = s.pc := rfl
@[simp] theorem setRb_rb (v : Word) (s : State) : (setRb v s).rb = v := rfl
@[simp] theorem setRb_status (v : Word) (s : State) : (setRb v s).status = s.status := rfl
@[simp] theorem setRb_fcause (v : Word) (s : State) : (setRb v s).fcause = s.fcause := rfl
@[simp] theorem setRb_finfo (v : Word) (s : State) : (setRb v s).finfo = s.finfo := rfl
@[simp] theorem setRb_io (v : Word) (s : State) : (setRb v s).io = s.io := rfl
@[simp] theorem setRb_inputs (v : Word) (s : State) : (setRb v s).inputs = s.inputs := rfl

@[simp] theorem advance_mem (width : Nat) (s : State) : (advance width s).mem = s.mem := rfl
@[simp] theorem advance_pc (width : Nat) (s : State) : (advance width s).pc = add64 s.pc (BitVec.ofNat 64 width) := rfl
@[simp] theorem advance_rb (width : Nat) (s : State) : (advance width s).rb = s.rb := rfl
@[simp] theorem advance_status (width : Nat) (s : State) : (advance width s).status = s.status := rfl
@[simp] theorem advance_fcause (width : Nat) (s : State) : (advance width s).fcause = s.fcause := rfl
@[simp] theorem advance_finfo (width : Nat) (s : State) : (advance width s).finfo = s.finfo := rfl
@[simp] theorem advance_io (width : Nat) (s : State) : (advance width s).io = s.io := rfl
@[simp] theorem advance_inputs (width : Nat) (s : State) : (advance width s).inputs = s.inputs := rfl

@[simp] theorem outputEmit_mem (v : Word) (s : State) : (outputEmit v s).mem = s.mem := rfl
@[simp] theorem outputEmit_pc (v : Word) (s : State) : (outputEmit v s).pc = s.pc := rfl
@[simp] theorem outputEmit_rb (v : Word) (s : State) : (outputEmit v s).rb = s.rb := rfl
@[simp] theorem outputEmit_status (v : Word) (s : State) : (outputEmit v s).status = s.status := rfl
@[simp] theorem outputEmit_fcause (v : Word) (s : State) : (outputEmit v s).fcause = s.fcause := rfl
@[simp] theorem outputEmit_finfo (v : Word) (s : State) : (outputEmit v s).finfo = s.finfo := rfl
@[simp] theorem outputEmit_io (v : Word) (s : State) : (outputEmit v s).io = s.io ++ [.output v] := rfl
@[simp] theorem outputEmit_inputs (v : Word) (s : State) : (outputEmit v s).inputs = s.inputs := rfl

@[simp] theorem halt_mem (s : State) : (halt s).mem = s.mem := rfl
@[simp] theorem halt_pc (s : State) : (halt s).pc = s.pc := rfl
@[simp] theorem halt_rb (s : State) : (halt s).rb = s.rb := rfl
@[simp] theorem halt_status (s : State) : (halt s).status = .halted := rfl
@[simp] theorem halt_fcause (s : State) : (halt s).fcause = s.fcause := rfl
@[simp] theorem halt_finfo (s : State) : (halt s).finfo = s.finfo := rfl
@[simp] theorem halt_io (s : State) : (halt s).io = s.io := rfl
@[simp] theorem halt_inputs (s : State) : (halt s).inputs = s.inputs := rfl

@[simp] theorem supply_mem (v : Word) (s : State) : (supply v s).mem = s.mem := rfl
@[simp] theorem supply_pc (v : Word) (s : State) : (supply v s).pc = s.pc := rfl
@[simp] theorem supply_rb (v : Word) (s : State) : (supply v s).rb = s.rb := rfl
@[simp] theorem supply_status (v : Word) (s : State) : (supply v s).status = s.status := rfl
@[simp] theorem supply_fcause (v : Word) (s : State) : (supply v s).fcause = s.fcause := rfl
@[simp] theorem supply_finfo (v : Word) (s : State) : (supply v s).finfo = s.finfo := rfl
@[simp] theorem supply_io (v : Word) (s : State) : (supply v s).io = s.io := rfl
@[simp] theorem supply_inputs (v : Word) (s : State) : (supply v s).inputs = s.inputs ++ [v] := rfl

@[simp] theorem construct_mem (image : List Word) : (construct image).mem = ⟨image, []⟩ := rfl
@[simp] theorem construct_pc (image : List Word) : (construct image).pc = 0 := rfl
@[simp] theorem construct_rb (image : List Word) : (construct image).rb = 0 := rfl
@[simp] theorem construct_status (image : List Word) : (construct image).status = .running := rfl
@[simp] theorem construct_fcause (image : List Word) : (construct image).fcause = 0 := rfl
@[simp] theorem construct_finfo (image : List Word) : (construct image).finfo = 0 := rfl
@[simp] theorem construct_io (image : List Word) : (construct image).io = [] := rfl
@[simp] theorem construct_inputs (image : List Word) : (construct image).inputs = [] := rfl

@[simp] theorem inputEvents_nil : inputEvents [] = [] := rfl
@[simp] theorem outputEvents_nil : outputEvents [] = [] := rfl
@[simp] theorem inputEvents_input (v : Word) (l : List IoEvent) : inputEvents (.input v :: l) = v :: inputEvents l := rfl
@[simp] theorem inputEvents_output (v : Word) (l : List IoEvent) : inputEvents (.output v :: l) = inputEvents l := rfl
@[simp] theorem outputEvents_input (v : Word) (l : List IoEvent) : outputEvents (.input v :: l) = outputEvents l := rfl
@[simp] theorem outputEvents_output (v : Word) (l : List IoEvent) :
    outputEvents (.output v :: l) = v :: outputEvents l := rfl

@[simp] theorem inputEvents_append (l m : List IoEvent) : inputEvents (l ++ m) = inputEvents l ++ inputEvents m := by
  induction l with
  | nil => rfl
  | cons e l ih => cases e <;> simp [ih]

@[simp] theorem outputEvents_append (l m : List IoEvent) : outputEvents (l ++ m) = outputEvents l ++ outputEvents m := by
  induction l with
  | nil => rfl
  | cons e l ih => cases e <;> simp [ih]

end Sys2Proof.Machine
end

