-- ==== Sys2Proof/Laws/Memory.lean ====
section
/-! SUPPORT. Memory: a cell just written reads as written, every other cell as before, and every operation keeps the
canonical form (`10_state.md` R12 to R14, `20_memory.md` R31, R32). -/

namespace Sys2Proof.Machine

/-! ## Signed values and addresses -/

theorem toNat_lt_of_nonneg {a : Word} (h : 0 ≤ a.toInt) : a.toNat < 2 ^ 63 := by
  have := BitVec.toInt_eq_toNat_cond a
  split at this <;> omega

theorem toInt_of_nonneg {a : Word} (h : 0 ≤ a.toInt) : a.toInt = a.toNat := by
  have := BitVec.toInt_eq_toNat_cond a
  split at this <;> omega

theorem toInt_lt (a : Word) : a.toInt < 2 ^ 63 := by
  have := BitVec.toInt_eq_toNat_cond a
  split at this <;> omega

theorem toInt_ge (a : Word) : -2 ^ 63 ≤ a.toInt := by
  have := BitVec.toInt_eq_toNat_cond a
  split at this <;> omega

/-! ## The overlay -/

theorem overlayGet_overlaySet_ne {a b : Nat} (h : b ≠ a) (v : Word) (l : List (Nat × Word)) :
    overlayGet (overlaySet a v l) b = overlayGet l b := by
  induction l with
  | nil => by_cases hv : v = Config.unlisted <;> simp [overlaySet, overlayGet, hv, h.symm]
  | cons e l ih =>
    obtain ⟨k, w⟩ := e
    simp only [overlaySet]
    split_ifs with h1 h2 h3 h4
    · rfl
    · simp [overlayGet, h.symm]
    · subst h3; simp [overlayGet, h.symm]
    · subst h3; simp [overlayGet, h.symm]
    · simp [overlayGet, ih]

theorem overlayGet_eq_of_lt {lo a : Nat} {l : List (Nat × Word)} (hl : overlayWf lo l = true) (ha : a < lo) :
    overlayGet l a = Config.unlisted := by
  induction l generalizing lo with
  | nil => rfl
  | cons e l ih =>
    obtain ⟨k, w⟩ := e
    simp only [overlayWf, Bool.and_eq_true, decide_eq_true_eq] at hl
    have hk : k ≠ a := by omega
    simp [overlayGet, hk, ih hl.2 (by omega)]

theorem overlayGet_overlaySet_self {lo a : Nat} {l : List (Nat × Word)} (hl : overlayWf lo l = true) (v : Word) :
    overlayGet (overlaySet a v l) a = v := by
  induction l generalizing lo with
  | nil => by_cases hv : v = Config.unlisted <;> simp [overlaySet, overlayGet, hv]
  | cons e l ih =>
    obtain ⟨k, w⟩ := e
    simp only [overlayWf, Bool.and_eq_true, decide_eq_true_eq] at hl
    simp only [overlaySet]
    split_ifs with h1 h2 h3 h4
    · have hk : k ≠ a := by omega
      simp [overlayGet, hk, h2, overlayGet_eq_of_lt hl.2 (by omega : a < k + 1)]
    · simp [overlayGet]
    · subst h3; simp [h4, overlayGet_eq_of_lt hl.2 (Nat.lt_succ_self a)]
    · simp [overlayGet]
    · have hk : k ≠ a := fun hk => h3 hk.symm
      simp [overlayGet, hk, ih hl.2]

theorem overlayWf_mono {lo lo' : Nat} {l : List (Nat × Word)} (hl : overlayWf lo l = true) (h : lo' ≤ lo) :
    overlayWf lo' l = true := by
  cases l with
  | nil => rfl
  | cons e l =>
    simp only [overlayWf, Bool.and_eq_true, decide_eq_true_eq] at hl ⊢
    exact ⟨⟨⟨by omega, hl.1.1.2⟩, hl.1.2⟩, hl.2⟩

theorem overlayWf_overlaySet {lo a : Nat} {l : List (Nat × Word)} (hl : overlayWf lo l = true) (ha : lo ≤ a)
    (ha' : a < Config.addrLimit) (v : Word) : overlayWf lo (overlaySet a v l) = true := by
  induction l generalizing lo with
  | nil => by_cases hv : v = Config.unlisted <;> simp [overlaySet, overlayWf, hv, ha, ha']
  | cons e l ih =>
    obtain ⟨k, w⟩ := e
    have hl' := hl
    simp only [overlayWf, Bool.and_eq_true, decide_eq_true_eq] at hl
    simp only [overlaySet]
    split_ifs with h1 h2 h3 h4
    · exact hl'
    · simp only [overlayWf, Bool.and_eq_true, decide_eq_true_eq]
      exact ⟨⟨⟨ha, ha'⟩, h2⟩, ⟨⟨by omega, hl.1.1.2⟩, hl.1.2⟩, hl.2⟩
    · exact overlayWf_mono hl.2 (by omega)
    · simp only [overlayWf, Bool.and_eq_true, decide_eq_true_eq]
      exact ⟨⟨⟨ha, ha'⟩, h4⟩, by subst h3; exact hl.2⟩
    · simp only [overlayWf, Bool.and_eq_true, decide_eq_true_eq]
      exact ⟨hl.1, ih hl.2 (by omega)⟩

/-- What an overlay in canonical form reads as: the cell of its entry. -/
theorem overlayGet_of_mem {lo a : Nat} {v : Word} {l : List (Nat × Word)} (hl : overlayWf lo l = true)
    (h : (a, v) ∈ l) : overlayGet l a = v := by
  induction l generalizing lo with
  | nil => simp at h
  | cons e l ih =>
    obtain ⟨k, w⟩ := e
    simp only [overlayWf, Bool.and_eq_true, decide_eq_true_eq] at hl
    rcases List.mem_cons.mp h with h | h
    · obtain ⟨rfl, rfl⟩ := Prod.mk.inj h
      simp [overlayGet]
    · have hk : k ≠ a := by
        rintro rfl
        have hz := overlayGet_eq_of_lt hl.2 (Nat.lt_succ_self k)
        rw [ih hl.2 h] at hz
        subst hz
        clear ih
        have : ∀ {lo : Nat} {l : List (Nat × Word)}, overlayWf lo l = true → ∀ k, (k, Config.unlisted) ∉ l := by
          intro lo l
          induction l generalizing lo with
          | nil => simp
          | cons e l ih =>
            intro hw k hm
            simp only [overlayWf, Bool.and_eq_true, decide_eq_true_eq] at hw
            rcases List.mem_cons.mp hm with hm | hm
            · exact hw.1.2 (by rw [← hm])
            · exact ih hw.2 k hm
        exact this hl.2 _ h
      simp [overlayGet, hk, ih hl.2 h]

theorem overlayGet_of_not_mem {a : Nat} {l : List (Nat × Word)} (h : ∀ v, (a, v) ∉ l) :
    overlayGet l a = Config.unlisted := by
  induction l with
  | nil => rfl
  | cons e l ih =>
    obtain ⟨k, w⟩ := e
    have hk : k ≠ a := by
      rintro rfl
      exact h w (by simp)
    simp [overlayGet, hk, ih fun v hv => h v (by simp [hv])]

/-! ## Memory -/

theorem Memory.wf_iff (m : Memory) :
    m.wf = true ↔ m.dense.length < Config.addrLimit ∧ overlayWf m.dense.length m.overlay = true := by
  simp [Memory.wf]

@[simp] theorem Memory.set_length (m : Memory) (a : Nat) (v : Word) : (m.set a v).dense.length = m.dense.length := by
  simp only [Memory.set]; split_ifs <;> simp

theorem Memory.get_set_ne (m : Memory) {a b : Nat} (h : b ≠ a) (v : Word) : (m.set a v).get b = m.get b := by
  simp only [Memory.set, Memory.get]
  by_cases ha : a < m.dense.length <;> by_cases hb : b < m.dense.length <;>
    simp [ha, hb, List.getElem_set_ne h.symm, overlayGet_overlaySet_ne h]

theorem Memory.get_set_self {m : Memory} (hm : m.wf = true) (a : Nat) (v : Word) : (m.set a v).get a = v := by
  simp only [Memory.set, Memory.get]
  by_cases ha : a < m.dense.length
  · simp [ha]
  · simp [ha, overlayGet_overlaySet_self ((Memory.wf_iff m).mp hm).2]

theorem Memory.wf_set {m : Memory} (hm : m.wf = true) {a : Nat} (ha : a < Config.addrLimit) (v : Word) :
    (m.set a v).wf = true := by
  rw [Memory.wf_iff] at hm ⊢
  refine ⟨by simpa using hm.1, ?_⟩
  rw [Memory.set_length]
  simp only [Memory.set]
  split_ifs with h
  · exact hm.2
  · exact overlayWf_overlaySet hm.2 (by omega) ha v

theorem Memory.get_set {m : Memory} (hm : m.wf = true) (a b : Nat) (v : Word) :
    (m.set a v).get b = if b = a then v else m.get b := by
  split_ifs with h
  · subst h; exact Memory.get_set_self hm b v
  · exact Memory.get_set_ne m h v

@[simp] theorem storeCells_length (cells : List Word) (m : Memory) (a : Nat) :
    (storeCells m a cells).dense.length = m.dense.length := by
  induction cells generalizing m a with
  | nil => rfl
  | cons w ws ih => simp [storeCells, ih]

theorem storeCells_wf (cells : List Word) {m : Memory} (hm : m.wf = true) {a : Nat}
    (ha : a + cells.length ≤ Config.addrLimit) : (storeCells m a cells).wf = true := by
  induction cells generalizing m a with
  | nil => exact hm
  | cons w ws ih =>
    simp only [List.length_cons] at ha
    exact ih (Memory.wf_set hm (by omega) w) (by omega)

/-! ## The two primitives -/

theorem memRead_of_nonneg {a : Word} (h : 0 ≤ a.toInt) (s : State) : memRead a s = .ok (s.mem.get a.toNat) := by
  simp [memRead, Int.not_lt.mpr h]

theorem memRead_of_neg {a : Word} (h : a.toInt < 0) (s : State) : memRead a s = .error (.negativeAddress a) := by
  simp [memRead, h]

/-- Everything a read can do. -/
theorem memRead_eq_ok {a v : Word} {s : State} : memRead a s = .ok v ↔ 0 ≤ a.toInt ∧ v = s.mem.get a.toNat := by
  simp only [memRead]
  split_ifs with h
  · simp; omega
  · simp only [Except.ok.injEq]; constructor
    · rintro rfl; exact ⟨by omega, rfl⟩
    · rintro ⟨_, rfl⟩; rfl

theorem memRead_eq_error {a : Word} {f : Fault} {s : State} :
    memRead a s = .error f ↔ a.toInt < 0 ∧ f = .negativeAddress a := by
  simp only [memRead]
  split_ifs with h
  · simp [h, eq_comm]
  · simp [h]

theorem memWrite_of_nonneg {a : Word} (h : 0 ≤ a.toInt) (v : Word) (s : State) :
    memWrite a v s = .ok { s with mem := s.mem.set a.toNat v } := by
  simp [memWrite, Int.not_lt.mpr h]

theorem memWrite_of_neg {a : Word} (h : a.toInt < 0) (v : Word) (s : State) :
    memWrite a v s = .error (.negativeAddress a) := by
  simp [memWrite, h]

theorem checkAddress_eq_ok {a d : Word} : checkAddress a = .ok d ↔ 0 ≤ a.toInt ∧ d = a := by
  simp only [checkAddress]
  split_ifs with h
  · simp; omega
  · simp only [Except.ok.injEq]; constructor
    · rintro rfl; exact ⟨by omega, rfl⟩
    · rintro ⟨_, rfl⟩; rfl

theorem checkAddress_eq_error {a : Word} {f : Fault} :
    checkAddress a = .error f ↔ a.toInt < 0 ∧ f = .negativeAddress a := by
  simp only [checkAddress]
  split_ifs with h
  · simp [h, eq_comm]
  · simp [h]

end Sys2Proof.Machine
end

