-- ==== Sys2Proof/Laws/Operands.lean ====
section
/-! SUPPORT. Everything the adders, the Operand Resolver and the four instruction formats can do (`40_step_and_operands.md`
R74, R75, R77, R78). -/

namespace Sys2Proof.Machine

/-! ## Arithmetic -/

theorem wrap64_toInt (v : Int) : (wrap64 v).toInt = v.bmod (2 ^ 64) :=
  BitVec.toInt_ofInt v

theorem wrap64_of_range {v : Int} (h1 : -2 ^ 63 ≤ v) (h2 : v < 2 ^ 63) : (wrap64 v).toInt = v := by
  rw [wrap64_toInt, Int.bmod_eq_of_le (by omega) (by omega)]

theorem wrap64_toInt_self (w : Word) : wrap64 w.toInt = w :=
  BitVec.ofInt_toInt

theorem add64_eq (x y : Word) : add64 x y = x + y := by
  simp [add64, wrap64, BitVec.ofInt_add]

theorem mul64_eq (x y : Word) : mul64 x y = x * y := by
  simp [mul64, wrap64, BitVec.ofInt_mul]

theorem toInt_ofNat_small {i : Nat} (h : i < 2 ^ 63) : (BitVec.ofNat 64 i).toInt = i := by
  have h' := BitVec.toInt_eq_toNat_cond (BitVec.ofNat 64 i)
  rw [BitVec.toNat_ofNat, Nat.mod_eq_of_lt (by omega : i < 2 ^ 64)] at h'
  split at h' <;> omega

/-- The adder with a small constant: the parameter addresses and the sequential advance. -/
theorem add64_ofNat (x : Word) {i : Nat} (h : i < 2 ^ 63) :
    add64 x (BitVec.ofNat 64 i) = wrap64 (x.toInt + i) := by
  simp only [add64, toInt_ofNat_small h]

theorem eq_zero_iff_toInt (x : Word) : x = 0 ↔ x.toInt = 0 := by
  constructor
  · rintro rfl; rfl
  · intro h; rw [← BitVec.toInt_inj, h]; rfl

theorem isTrue_eq (x : Word) : isTrue x = decide (x.toInt ≠ 0) := by
  simp only [isTrue, ne_eq, eq_zero_iff_toInt]

/-! ## Fault entry -/

/-- The state fault entry makes of the state before the step (`60_exceptions.md` R141). -/
def takeFault (f : Fault) (s : State) : State :=
  { s with status := .faulted, fcause := f.code, finfo := f.info }

theorem raise_eq (f : Fault) (s : State) : raise f s = .next (takeFault f s) := rfl

@[simp] theorem takeFault_mem (f : Fault) (s : State) : (takeFault f s).mem = s.mem := rfl
@[simp] theorem takeFault_pc (f : Fault) (s : State) : (takeFault f s).pc = s.pc := rfl
@[simp] theorem takeFault_rb (f : Fault) (s : State) : (takeFault f s).rb = s.rb := rfl
@[simp] theorem takeFault_status (f : Fault) (s : State) : (takeFault f s).status = .faulted := rfl
@[simp] theorem takeFault_fcause (f : Fault) (s : State) : (takeFault f s).fcause = f.code := rfl
@[simp] theorem takeFault_finfo (f : Fault) (s : State) : (takeFault f s).finfo = f.info := rfl
@[simp] theorem takeFault_io (f : Fault) (s : State) : (takeFault f s).io = s.io := rfl
@[simp] theorem takeFault_inputs (f : Fault) (s : State) : (takeFault f s).inputs = s.inputs := rfl

@[simp] theorem settle_ok (s t : State) : settle s (.ok t) = .next t := rfl
@[simp] theorem settle_error (s : State) (f : Fault) : settle s (.error f) = .next (takeFault f s) := rfl

theorem settle_eq_next {s t : State} {r : Except Fault State} :
    settle s r = .next t ↔ r = .ok t ∨ ∃ f, r = .error f ∧ t = takeFault f s := by
  cases r with
  | ok u => simp
  | error f => simp [eq_comm]

/-! ## The resolver -/

theorem rd_eq_ok {p : Param} {s : State} {v : Word} :
    rd p s = .ok v ↔ (p.mode = .immediate ∧ v = p.raw) ∨
      (p.mode ≠ .immediate ∧ 0 ≤ (effectiveAddress p s).toInt ∧ v = s.mem.get (effectiveAddress p s).toNat) := by
  cases hm : p.mode <;> simp [rd, hm, memRead_eq_ok]
  exact eq_comm

theorem rd_eq_error {p : Param} {s : State} {f : Fault} :
    rd p s = .error f ↔
      p.mode ≠ .immediate ∧ (effectiveAddress p s).toInt < 0 ∧ f = .negativeAddress (effectiveAddress p s) := by
  cases hm : p.mode <;> simp [rd, hm, memRead_eq_error]

theorem checkWriteMode_of_ne {p : Param} (h : p.mode ≠ .immediate) (s : State) : checkWriteMode p s = .ok () := by
  cases hm : p.mode <;> simp_all [checkWriteMode]

theorem checkWriteMode_of_immediate {p : Param} (h : p.mode = .immediate) (s : State) :
    checkWriteMode p s = .error (.invalidWriteTarget (currentOpcodeWord s)) := by
  simp [checkWriteMode, h]

theorem wa_eq_ok {p : Param} {s : State} {d : Word} :
    wa p s = .ok d ↔ p.mode ≠ .immediate ∧ 0 ≤ (effectiveAddress p s).toInt ∧ d = effectiveAddress p s := by
  cases hm : p.mode <;> simp [wa, hm, checkAddress_eq_ok]

theorem wa_eq_error {p : Param} {s : State} {f : Fault} :
    wa p s = .error f ↔ (p.mode = .immediate ∧ f = .invalidWriteTarget (currentOpcodeWord s)) ∨
      (p.mode ≠ .immediate ∧ (effectiveAddress p s).toInt < 0 ∧ f = .negativeAddress (effectiveAddress p s)) := by
  cases hm : p.mode <;> simp [wa, hm, checkAddress_eq_error]
  exact eq_comm

theorem writable_iff (p : Param) : p.writable = true ↔ p.mode ≠ .immediate := by
  simp [Param.writable]

/-! ## The formats -/

@[simp] theorem except_bind_ok {ε α β : Type} (a : α) (k : α → Except ε β) : (Except.ok a >>= k) = k a := rfl
@[simp] theorem except_bind_error {ε α β : Type} (e : ε) (k : α → Except ε β) :
    ((Except.error e : Except ε α) >>= k) = .error e := rfl

/-- Peels one bind off a computation that answers a value. -/
theorem except_bind_eq_ok {ε α β : Type} {x : Except ε α} {k : α → Except ε β} {b : β} :
    (x >>= k) = .ok b ↔ ∃ a, x = .ok a ∧ k a = .ok b := by
  cases x <;> simp

/-- Peels one bind off a computation that faults. -/
theorem except_bind_eq_error {ε α β : Type} {x : Except ε α} {k : α → Except ε β} {e : ε} :
    (x >>= k) = .error e ↔ x = .error e ∨ ∃ a, x = .ok a ∧ k a = .error e := by
  cases x <;> simp

/-- The state a storing format of four cells leaves. -/
def stored3 (s : State) (d v : Word) : State :=
  { s with mem := s.mem.set d.toNat v, pc := wrap64 (s.pc.toInt + 4) }

theorem format3_ok {f : Word → Word → Word} {a b dst : Param} {s : State} {v1 v2 d : Word}
    (h1 : rd a s = .ok v1) (h2 : rd b s = .ok v2) (hd : wa dst s = .ok d) :
    format3 f a b dst s = .ok (stored3 s d (f v1 v2)) := by
  obtain ⟨hm, hn, rfl⟩ := wa_eq_ok.mp hd
  simp only [format3, checkWriteMode_of_ne hm, h1, h2, hd, except_bind_ok, memWrite_of_nonneg hn, advance,
    add64_ofNat _ (by omega : (4 : Nat) < 2 ^ 63)]
  rfl

theorem format3_eq_ok {f : Word → Word → Word} {a b dst : Param} {s t : State} :
    format3 f a b dst s = .ok t ↔
      ∃ v1 v2 d, rd a s = .ok v1 ∧ rd b s = .ok v2 ∧ wa dst s = .ok d ∧ t = stored3 s d (f v1 v2) := by
  constructor
  · intro h
    obtain ⟨-, -, h⟩ := except_bind_eq_ok.mp h
    obtain ⟨v1, h1, h⟩ := except_bind_eq_ok.mp h
    obtain ⟨v2, h2, h⟩ := except_bind_eq_ok.mp h
    obtain ⟨d, hd, h'⟩ := except_bind_eq_ok.mp h
    refine ⟨v1, v2, d, h1, h2, hd, ?_⟩
    have hm : dst.mode ≠ .immediate := (wa_eq_ok.mp hd).1
    have := format3_ok (f := f) h1 h2 hd
    simp only [format3, checkWriteMode_of_ne hm, h1, h2, hd, except_bind_ok] at this
    rw [this] at h'
    exact (Except.ok.inj h').symm
  · rintro ⟨v1, v2, d, h1, h2, hd, rfl⟩
    exact format3_ok h1 h2 hd

/-- The first parameter that does not resolve gives the fault; the mode of the write parameter comes before them all. -/
theorem format3_eq_error {f : Word → Word → Word} {a b dst : Param} {s : State} {e : Fault} :
    format3 f a b dst s = .error e ↔
      (dst.mode = .immediate ∧ e = .invalidWriteTarget (currentOpcodeWord s)) ∨
      (dst.mode ≠ .immediate ∧ (rd a s = .error e ∨
        (∃ v1, rd a s = .ok v1) ∧ (rd b s = .error e ∨ (∃ v2, rd b s = .ok v2) ∧ wa dst s = .error e))) := by
  by_cases hm : dst.mode = .immediate
  · simp [format3, checkWriteMode_of_immediate hm, hm, eq_comm]
  · simp only [format3, checkWriteMode_of_ne hm, except_bind_ok, hm, false_and, ne_eq, not_false_eq_true, true_and, false_or]
    cases h1 : rd a s with
    | error e1 => simp
    | ok v1 =>
      cases h2 : rd b s with
      | error e2 => simp
      | ok v2 =>
        cases hd : wa dst s with
        | error e3 => simp
        | ok d => simp [memWrite_of_nonneg ((wa_eq_ok.mp hd).2.2 ▸ (wa_eq_ok.mp hd).2.1)]

theorem format2_ok {taken : Word → Bool} {c g : Param} {s : State} {v1 v2 : Word}
    (h1 : rd c s = .ok v1) (h2 : rd g s = .ok v2) :
    format2 taken c g s = .ok { s with pc := if taken v1 then v2 else wrap64 (s.pc.toInt + 3) } := by
  simp only [format2, h1, h2, except_bind_ok, advance, add64_ofNat _ (by omega : (3 : Nat) < 2 ^ 63)]
  cases taken v1 <;> rfl

theorem format2_eq_ok {taken : Word → Bool} {c g : Param} {s t : State} :
    format2 taken c g s = .ok t ↔ ∃ v1 v2, rd c s = .ok v1 ∧ rd g s = .ok v2 ∧
      t = { s with pc := if taken v1 then v2 else wrap64 (s.pc.toInt + 3) } := by
  constructor
  · intro h
    have h' := h
    obtain ⟨v1, h1, h⟩ := except_bind_eq_ok.mp h
    obtain ⟨v2, h2, -⟩ := except_bind_eq_ok.mp h
    rw [format2_ok h1 h2] at h'
    exact ⟨v1, v2, h1, h2, (Except.ok.inj h').symm⟩
  · rintro ⟨v1, v2, h1, h2, rfl⟩
    exact format2_ok h1 h2

theorem format2_eq_error {taken : Word → Bool} {c g : Param} {s : State} {e : Fault} :
    format2 taken c g s = .error e ↔ rd c s = .error e ∨ (∃ v1, rd c s = .ok v1) ∧ rd g s = .error e := by
  simp only [format2]
  cases h1 : rd c s with
  | error e1 => simp
  | ok v1 => cases h2 : rd g s <;> simp

theorem format1_ok {effect : Word → State → State} {a : Param} {s : State} {v : Word} (h : rd a s = .ok v) :
    format1 effect a s = .ok (advance 2 (effect v s)) := by
  simp [format1, h]

theorem format1_eq_ok {effect : Word → State → State} {a : Param} {s t : State} :
    format1 effect a s = .ok t ↔ ∃ v, rd a s = .ok v ∧ t = advance 2 (effect v s) := by
  cases h : rd a s <;> simp [format1, h, eq_comm]

theorem format1_eq_error {effect : Word → State → State} {a : Param} {s : State} {e : Fault} :
    format1 effect a s = .error e ↔ rd a s = .error e := by
  cases h : rd a s <;> simp [format1, h]

/-- The state an Input that has its value leaves. -/
def stored1 (s : State) (d v : Word) (rest : List Word) : State :=
  { s with mem := s.mem.set d.toNat v, pc := wrap64 (s.pc.toInt + 2), io := s.io ++ [.input v], inputs := rest }

theorem format1w_ok {dst : Param} {s : State} {d v : Word} {rest : List Word} (hd : wa dst s = .ok d)
    (hi : s.inputs = v :: rest) : format1w dst s = .ok (stored1 s d v rest) := by
  obtain ⟨hm, hn, rfl⟩ := wa_eq_ok.mp hd
  simp only [format1w, checkWriteMode_of_ne hm, hd, except_bind_ok, inputRequest, hi, memWrite_of_nonneg hn, advance,
    add64_ofNat _ (by omega : (2 : Nat) < 2 ^ 63)]
  rfl

theorem format1w_hold {dst : Param} {s : State} {d : Word} (hd : wa dst s = .ok d) (hi : s.inputs = []) :
    format1w dst s = .ok s := by
  simp [format1w, checkWriteMode_of_ne (wa_eq_ok.mp hd).1, hd, inputRequest, hi]

theorem format1w_eq_ok {dst : Param} {s t : State} :
    format1w dst s = .ok t ↔ ∃ d, wa dst s = .ok d ∧
      ((s.inputs = [] ∧ t = s) ∨ ∃ v rest, s.inputs = v :: rest ∧ t = stored1 s d v rest) := by
  constructor
  · intro h
    have h' := h
    obtain ⟨-, -, h⟩ := except_bind_eq_ok.mp h
    obtain ⟨d, hd, -⟩ := except_bind_eq_ok.mp h
    refine ⟨d, hd, ?_⟩
    cases hi : s.inputs with
    | nil => rw [format1w_hold hd hi] at h'; exact .inl ⟨rfl, (Except.ok.inj h').symm⟩
    | cons v rest => rw [format1w_ok hd hi] at h'; exact .inr ⟨v, rest, rfl, (Except.ok.inj h').symm⟩
  · rintro ⟨d, hd, ⟨hi, rfl⟩ | ⟨v, rest, hi, rfl⟩⟩
    · exact format1w_hold hd hi
    · exact format1w_ok hd hi

theorem format1w_eq_error {dst : Param} {s : State} {e : Fault} :
    format1w dst s = .error e ↔ wa dst s = .error e := by
  constructor
  · intro h
    cases hd : wa dst s with
    | error e' =>
      by_cases hm : dst.mode = .immediate
      · simp only [format1w, checkWriteMode_of_immediate hm, except_bind_error, Except.error.injEq] at h
        rw [← h, ← hd, (wa_eq_error.mpr (.inl ⟨hm, rfl⟩))]
      · simpa [format1w, checkWriteMode_of_ne hm, hd] using h
    | ok d =>
      exfalso
      cases hi : s.inputs with
      | nil => simp [format1w_hold hd hi] at h
      | cons v rest => simp [format1w_ok hd hi] at h
  · intro hd
    rcases wa_eq_error.mp hd with ⟨hm, rfl⟩ | ⟨hm, -⟩
    · simp [format1w, checkWriteMode_of_immediate hm]
    · simp [format1w, checkWriteMode_of_ne hm, hd]

end Sys2Proof.Machine
end

