-- ==== Sys2Proof/Laws/Step.lean ====
section
/-! SUPPORT. Everything an instruction, a fetch and a step can do, said once: `exec_eq_next`, `fetch_eq_ok`, `step_cases`. -/

namespace Sys2Proof.Machine

/-! ## What each instruction does when it does not fault -/

/-- The effect of an instruction that resolves (`40_step_and_operands.md` R76 stages 7 and 8), or its hold (`42_io.md` R100). -/
def completes : Instr → State → State → Prop
  | .add a b dst, s, t => ∃ v1 v2 d, rd a s = .ok v1 ∧ rd b s = .ok v2 ∧ wa dst s = .ok d ∧
      t = stored3 s d (add64 v1 v2)
  | .multiply a b dst, s, t => ∃ v1 v2 d, rd a s = .ok v1 ∧ rd b s = .ok v2 ∧ wa dst s = .ok d ∧
      t = stored3 s d (mul64 v1 v2)
  | .input dst, s, t => ∃ d, wa dst s = .ok d ∧
      ((s.inputs = [] ∧ t = s) ∨ ∃ v rest, s.inputs = v :: rest ∧ t = stored1 s d v rest)
  | .output a, s, t => ∃ v, rd a s = .ok v ∧
      t = { s with pc := wrap64 (s.pc.toInt + 2), io := s.io ++ [.output v] }
  | .jumpIfTrue c g, s, t => ∃ v1 v2, rd c s = .ok v1 ∧ rd g s = .ok v2 ∧
      t = { s with pc := if v1.toInt ≠ 0 then v2 else wrap64 (s.pc.toInt + 3) }
  | .jumpIfFalse c g, s, t => ∃ v1 v2, rd c s = .ok v1 ∧ rd g s = .ok v2 ∧
      t = { s with pc := if v1.toInt = 0 then v2 else wrap64 (s.pc.toInt + 3) }
  | .lessThan a b dst, s, t => ∃ v1 v2 d, rd a s = .ok v1 ∧ rd b s = .ok v2 ∧ wa dst s = .ok d ∧
      t = stored3 s d (lessThanCell v1 v2)
  | .equalTo a b dst, s, t => ∃ v1 v2 d, rd a s = .ok v1 ∧ rd b s = .ok v2 ∧ wa dst s = .ok d ∧
      t = stored3 s d (equalToCell v1 v2)
  | .adjustRelativeBase a, s, t => ∃ v, rd a s = .ok v ∧
      t = { s with rb := wrap64 (s.rb.toInt + v.toInt), pc := wrap64 (s.pc.toInt + 2) }
  | .stop, s, t => t = { s with status := .halted }

/-- The fault an instruction raises: the mode of its write parameter, then its parameters in order (R76 stages 4 and 6). -/
def faults : Instr → State → Fault → Prop
  | .add a b dst, s, f => format3 add64 a b dst s = .error f
  | .multiply a b dst, s, f => format3 mul64 a b dst s = .error f
  | .input dst, s, f => wa dst s = .error f
  | .output a, s, f => rd a s = .error f
  | .jumpIfTrue c g, s, f => rd c s = .error f ∨ (∃ v, rd c s = .ok v) ∧ rd g s = .error f
  | .jumpIfFalse c g, s, f => rd c s = .error f ∨ (∃ v, rd c s = .ok v) ∧ rd g s = .error f
  | .lessThan a b dst, s, f => format3 lessThanCell a b dst s = .error f
  | .equalTo a b dst, s, f => format3 equalToCell a b dst s = .error f
  | .adjustRelativeBase a, s, f => rd a s = .error f
  | .stop, _, _ => False

theorem advance_two (s : State) : advance 2 s = { s with pc := wrap64 (s.pc.toInt + 2) } := by
  simp only [advance, add64_ofNat _ (by omega : (2 : Nat) < 2 ^ 63)]; rfl

/-- Everything `exec` can do: it completes, or takes a fault on the state before it. -/
theorem exec_eq_next {i : Instr} {s t : State} :
    exec i s = .next t ↔ completes i s t ∨ ∃ f, faults i s f ∧ t = takeFault f s := by
  cases i with
  | add a b dst => simp only [exec, execAdd, settle_eq_next, format3_eq_ok, completes, faults]
  | multiply a b dst => simp only [exec, execMultiply, settle_eq_next, format3_eq_ok, completes, faults]
  | lessThan a b dst => simp only [exec, execLessThan, settle_eq_next, format3_eq_ok, completes, faults]
  | equalTo a b dst => simp only [exec, execEqualTo, settle_eq_next, format3_eq_ok, completes, faults]
  | input dst => simp only [exec, execInput, settle_eq_next, format1w_eq_ok, format1w_eq_error, completes, faults]
  | output a =>
    simp only [exec, execOutput, settle_eq_next, format1_eq_ok, format1_eq_error, completes, faults, advance_two]
    rfl
  | jumpIfTrue c g =>
    simp only [exec, execJumpIfTrue, settle_eq_next, format2_eq_ok, format2_eq_error, completes, faults, isTrue_eq,
      decide_eq_true_eq]
  | jumpIfFalse c g =>
    simp only [exec, execJumpIfFalse, settle_eq_next, format2_eq_ok, format2_eq_error, completes, faults, isTrue_eq,
      Bool.not_eq_true', decide_eq_false_iff_not, ne_eq, not_not]
  | adjustRelativeBase a =>
    simp only [exec, execAdjustRelativeBase, settle_eq_next, format1_eq_ok, format1_eq_error, completes, faults,
      advance_two, setRb, add64]
  | stop => simp [exec, execStop, completes, faults, halt, eq_comm]

/-- `exec` never ends in a fault or a refusal of the host's. -/
theorem exec_next (i : Instr) (s : State) : ∃ t, exec i s = .next t := by
  have h : ∀ r : Except Fault State, ∃ t, settle s r = .next t := fun r => by cases r <;> exact ⟨_, rfl⟩
  cases i <;> first | exact h _ | exact ⟨_, rfl⟩

/-! ## The fetch -/

theorem decodeWord_eq_ok {w : Word} {o : Opcode} : decodeWord w = .ok o ↔ decodeOpcode w = .ok o := by
  simp only [decodeWord]; cases decodeOpcode w <;> simp

theorem decodeWord_eq_error {w : Word} {f : Fault} :
    decodeWord w = .error f ↔ ∃ e, decodeOpcode w = .error e ∧ f = decodeFault w e := by
  simp only [decodeWord]; cases decodeOpcode w <;> simp [eq_comm]

theorem decodeFault_info {w : Word} {e : DecodeError} (h : decodeOpcode w = .error e) : (decodeFault w e).info = w := by
  rcases decodeOpcode_eq_error h with rfl | rfl | rfl <;> rfl

/-- R72: the raw values are the cells at the parameter addresses, all of them legal. -/
theorem fetchRaws_eq_ok {s : State} {is : List Nat} {raws : List Word} :
    fetchRaws s is = .ok raws ↔ (∀ i ∈ is, 0 ≤ (paramAddress s i).toInt) ∧
      raws = is.map fun i => s.mem.get (paramAddress s i).toNat := by
  induction is generalizing raws with
  | nil => simp [fetchRaws, eq_comm]
  | cons i is ih =>
    simp only [fetchRaws, except_bind_eq_ok, memRead_eq_ok, ih, Except.ok.injEq, List.mem_cons, forall_eq_or_imp, List.map_cons]
    constructor
    · rintro ⟨_, ⟨h1, rfl⟩, _, ⟨h2, rfl⟩, rfl⟩; exact ⟨⟨h1, h2⟩, rfl⟩
    · rintro ⟨⟨h1, h2⟩, rfl⟩; exact ⟨_, ⟨h1, rfl⟩, _, ⟨h2, rfl⟩, rfl⟩

/-- R72: the fault is the first illegal parameter address. -/
theorem fetchRaws_eq_error {s : State} {is : List Nat} {f : Fault} :
    fetchRaws s is = .error f ↔
      ∃ a, (is.map (paramAddress s)).find? (fun a => decide (a.toInt < 0)) = some a ∧ f = .negativeAddress a := by
  induction is with
  | nil => simp [fetchRaws]
  | cons i is ih =>
    simp only [fetchRaws, List.map_cons, List.find?_cons]
    by_cases h : (paramAddress s i).toInt < 0
    · simp [memRead_of_neg h, h, eq_comm]
    · simp only [memRead_of_nonneg (Int.not_lt.mp h), except_bind_ok, h, decide_false]
      rw [← ih]
      cases fetchRaws s is <;> simp

/-- Everything a fetch that finds an instruction says. -/
theorem fetch_eq_ok {s : State} {i : Instr} :
    fetch s = .ok i ↔ 0 ≤ s.pc.toInt ∧ ∃ o, decodeOpcode (s.mem.get s.pc.toNat) = .ok o ∧
      (∀ k ∈ o.op.paramIndices, 0 ≤ (paramAddress s k).toInt) ∧
      i = o.build (o.op.paramIndices.map fun k => s.mem.get (paramAddress s k).toNat) := by
  simp only [fetch, except_bind_eq_ok, memRead_eq_ok, decodeWord_eq_ok, fetchRaws_eq_ok, Except.ok.injEq]
  constructor
  · rintro ⟨_, ⟨hp, rfl⟩, o, ho, _, ⟨hk, rfl⟩, rfl⟩; exact ⟨hp, o, ho, hk, rfl⟩
  · rintro ⟨hp, o, ho, hk, rfl⟩; exact ⟨_, ⟨hp, rfl⟩, o, ho, _, ⟨hk, rfl⟩, rfl⟩

/-- The three ways a fetch faults, in the order of the stages (`60_exceptions.md` R143). -/
theorem fetch_eq_error {s : State} {f : Fault} :
    fetch s = .error f ↔
      (s.pc.toInt < 0 ∧ f = .negativeAddress s.pc) ∨
      (0 ≤ s.pc.toInt ∧ ((∃ e, decodeOpcode (s.mem.get s.pc.toNat) = .error e ∧
          f = decodeFault (s.mem.get s.pc.toNat) e) ∨
        ∃ o, decodeOpcode (s.mem.get s.pc.toNat) = .ok o ∧ fetchRaws s o.op.paramIndices = .error f)) := by
  by_cases h : s.pc.toInt < 0
  · simp [fetch, memRead_of_neg h, h, eq_comm]
  · simp only [fetch, memRead_of_nonneg (Int.not_lt.mp h), except_bind_ok, except_bind_eq_error, decodeWord_eq_error,
      decodeWord_eq_ok, h, false_and, false_or, Int.not_lt.mp h, true_and, reduceCtorEq, and_false, exists_const, or_false]

theorem fetch_wellFormed {s : State} {i : Instr} (h : fetch s = .ok i) : i.wellFormed = true := by
  obtain ⟨-, o, ho, -, rfl⟩ := fetch_eq_ok.mp h
  simp [Opcode.build_wellFormed, (decodeOpcode_eq_ok.mp ho).2.2.2]

/-- The operation code of a fetched instruction is the cell at `pc` modulo 100. -/
theorem fetch_code {s : State} {i : Instr} (h : fetch s = .ok i) :
    0 ≤ s.pc.toInt ∧ 0 ≤ (s.mem.get s.pc.toNat).toInt ∧ (s.mem.get s.pc.toNat).toInt % 100 = i.code := by
  obtain ⟨hp, o, ho, -, rfl⟩ := fetch_eq_ok.mp h
  obtain ⟨hn, hc, -⟩ := decodeOpcode_eq_ok.mp ho
  refine ⟨hp, hn, ?_⟩
  rw [toInt_of_nonneg hn, Opcode.build_code, ← hc]
  omega

/-! ## The step -/

/-- Everything a step can do. -/
theorem step_eq_next {s t : State} :
    step s = .next t ↔ (s.status ≠ .running ∧ t = s) ∨
      (s.status = .running ∧ ((∃ f, fetch s = .error f ∧ t = takeFault f s) ∨
        ∃ i, fetch s = .ok i ∧ exec i s = .next t)) := by
  simp only [step]
  cases h : s.status with
  | running => cases hf : fetch s <;> simp [raise_eq, eq_comm]
  | halted => simp [idle, eq_comm]
  | faulted => simp [idle, eq_comm]

/-- The same, down to what the instruction does. -/
theorem step_cases {s t : State} (h : step s = .next t) :
    (s.status ≠ .running ∧ t = s) ∨
    (s.status = .running ∧ ∃ f, fetch s = .error f ∧ t = takeFault f s) ∨
    (s.status = .running ∧ ∃ i, fetch s = .ok i ∧ completes i s t) ∨
    (s.status = .running ∧ ∃ i f, fetch s = .ok i ∧ faults i s f ∧ t = takeFault f s) := by
  rcases step_eq_next.mp h with h | ⟨hr, ⟨f, hf, ht⟩ | ⟨i, hi, hx⟩⟩
  · exact .inl h
  · exact .inr (.inl ⟨hr, f, hf, ht⟩)
  · rcases exec_eq_next.mp hx with hc | ⟨f, hf, ht⟩
    · exact .inr (.inr (.inl ⟨hr, i, hi, hc⟩))
    · exact .inr (.inr (.inr ⟨hr, i, f, hi, hf, ht⟩))

theorem step_next (s : State) : ∃ t, step s = .next t := by
  simp only [step]
  cases s.status with
  | running =>
    cases fetch s with
    | error f => exact ⟨_, rfl⟩
    | ok i => exact exec_next i s
  | halted => exact ⟨_, rfl⟩
  | faulted => exact ⟨_, rfl⟩

/-! ## Runs -/

@[simp] theorem run_zero (s : State) : Sys2Proof.core.run 0 s = .next s := rfl

theorem run_succ {n : Nat} {s t : State} (h : step s = .next t) :
    Sys2Proof.core.run (n + 1) s = Sys2Proof.core.run n t := by
  have : Sys2Proof.core.step s = .next t := h
  simp only [Host.Core.run, this]

/-- A property that every step keeps holds at the end of every run. -/
theorem run_induction {P : State → Prop} (hstep : ∀ s t, P s → step s = .next t → P t) (n : Nat) {s t : State}
    (hs : P s) (h : Sys2Proof.core.run n s = .next t) : P t := by
  induction n generalizing s with
  | zero => cases h; exact hs
  | succ n ih =>
    obtain ⟨u, hu⟩ := step_next s
    exact ih (hstep s u hs hu) (run_succ hu ▸ h)

end Sys2Proof.Machine
end

