-- ==== Sys2Proof/Laws/Environment.lean ====
section
/-! SUPPORT. What the values the environment has ready have to do with a step: no fetch, operand or fault depends on them, a
state that performs no step stays as it is, and the moves of a run one by one (`42_io.md` R100, R101; `60_exceptions.md`
R144). -/

namespace Sys2Proof.Machine

/-! ## States that differ in the values ready -/

theorem sameButInputs_iff {s t : State} : s.sameButInputs t ↔ t = { s with inputs := t.inputs } := by
  constructor
  · intro h
    cases s; cases t
    simp_all [State.sameButInputs]
  · intro h
    rw [h]; rfl

theorem State.sameButInputs.inHist {s t : State} (h : s.sameButInputs t) : s.inHist = t.inHist := by
  rw [sameButInputs_iff.mp h]; rfl

theorem State.sameButInputs.outHist {s t : State} (h : s.sameButInputs t) : s.outHist = t.outHist := by
  rw [sameButInputs_iff.mp h]; rfl

@[simp] theorem rd_withInputs (p : Param) (s : State) (inputs : List Word) :
    rd p { s with inputs := inputs } = rd p s := rfl

@[simp] theorem wa_withInputs (p : Param) (s : State) (inputs : List Word) :
    wa p { s with inputs := inputs } = wa p s := rfl

theorem fetchRaws_withInputs (s : State) (inputs : List Word) (is : List Nat) :
    fetchRaws { s with inputs := inputs } is = fetchRaws s is := by
  induction is with
  | nil => rfl
  | cons i is ih => simp only [fetchRaws, ih]; rfl

@[simp] theorem fetch_withInputs (s : State) (inputs : List Word) : fetch { s with inputs := inputs } = fetch s := by
  simp only [fetch, fetchRaws_withInputs]; rfl

/-- R144: which fault an instruction raises does not depend on the values ready. -/
theorem faults_withInputs {i : Instr} {s : State} {f : Fault} {inputs : List Word} :
    faults i { s with inputs := inputs } f ↔ faults i s f := by
  cases i <;> simp only [faults, format3_eq_error] <;> rfl

/-! ## Waiting -/

/-- R100: everything a waiting state says. -/
theorem waits_iff {s : State} :
    s.waits = true ↔ s.inputs = [] ∧ ∃ dst d, fetch s = .ok (.input dst) ∧ wa dst s = .ok d := by
  simp only [State.waits, Bool.and_eq_true, List.isEmpty_iff]
  refine and_congr_right fun _ => ?_
  rcases h : fetch s with f | i
  · simp
  · cases i <;> simp
    case input dst => cases wa dst s <;> simp [Except.isOk, Except.toBool]

theorem performs_iff {s : State} : s.performs = true ↔ s.status = .running ∧ s.waits = false := by
  simp [State.performs]

/-- R82, R100: where no step is performed, `step` answers the same state (logs 2, 4). -/
theorem step_of_not_performs {s : State} (h : s.performs = false) : step s = .next s := by
  by_cases hr : s.status = .running
  · have hw : s.waits = true := by simpa [State.performs, hr] using h
    obtain ⟨hi, dst, d, hf, hd⟩ := waits_iff.mp hw
    exact step_eq_next.mpr (.inr ⟨hr, .inr ⟨_, hf, exec_eq_next.mpr (.inl ⟨d, hd, .inl ⟨hi, rfl⟩⟩)⟩⟩)
  · exact step_eq_next.mpr (.inl ⟨hr, rfl⟩)

/-! ## Moves -/

@[simp] theorem playMoves_nil (s : State) : playMoves [] s = .next s := rfl

@[simp] theorem playMoves_supply (v : Word) (moves : List Move) (s : State) :
    playMoves (.supply v :: moves) s = playMoves moves (supply v s) := rfl

theorem playMoves_step {moves : List Move} {s t : State} (h : step s = .next t) :
    playMoves (.step :: moves) s = playMoves moves t := by
  simp only [playMoves, h]

@[simp] theorem performedSteps_nil (s : State) : performedSteps [] s = 0 := rfl

@[simp] theorem performedSteps_supply (v : Word) (moves : List Move) (s : State) :
    performedSteps (.supply v :: moves) s = performedSteps moves (supply v s) := rfl

theorem performedSteps_step {moves : List Move} {s t : State} (h : step s = .next t) :
    performedSteps (.step :: moves) s = (if s.performs then 1 else 0) + performedSteps moves t := by
  simp only [performedSteps, h]

end Sys2Proof.Machine
end

