-- ==== Sys2Proof/Laws/PerInstr.lean ====
section
/-! SUPPORT. What the canonical cells of every instruction are, one lemma per constructor: the family `EncodedCells`. -/

namespace Sys2Proof.Laws.EncodedCells

open Sys2Proof

/-- `30_encoding.md` R50, R51, R56, R62: an instruction has one cell for its opcode word and one for each parameter, the raw
values in order; the canonical word is not negative, its last two digits are the operation code, and it has no digit above
the mode digit of the last parameter. -/
def Statement (i : Instr) : Prop :=
  encode i = i.opcodeWord :: i.params.map Param.raw ∧ (encode i).length = 1 + i.params.length ∧
    0 ≤ i.opcodeWord.toInt ∧ i.opcodeWord.toNat % 100 = i.code ∧ i.opcodeWord.toNat < 10 ^ (2 + i.params.length)

theorem modeDigits_lt (ps : List Param) : modeDigits ps < 10 ^ ps.length := by
  induction ps with
  | nil => simp [modeDigits]
  | cons p ps ih =>
    have := p.mode.digit_lt
    simp only [modeDigits, List.length_cons, Nat.pow_succ]
    omega

/-- The facts about the digits, for any operation code and at most three parameters. -/
theorem of_code {i : Instr} (hc : i.code < 100) (hp : i.params.length ≤ 3) : Statement i := by
  have hd := modeDigits_lt i.params
  have hp' : 10 ^ i.params.length ≤ 10 ^ 3 := Nat.pow_le_pow_right (by decide) hp
  have hlt : i.code + 100 * modeDigits i.params < 2 ^ 63 := by omega
  have hw : i.opcodeWord.toNat = i.code + 100 * modeDigits i.params := by
    rw [Instr.opcodeWord, BitVec.toNat_ofNat, Nat.mod_eq_of_lt (by omega)]
  refine ⟨rfl, by simp [encode, Nat.add_comm], ?_, by omega, ?_⟩
  · rw [BitVec.toInt_eq_toNat_of_lt (by omega)]
    omega
  · rw [hw, Nat.pow_add]
    omega

theorem add (a b dst : Param) : Statement (.add a b dst) := of_code (by simp [Instr.code]) (by simp [Instr.params])
theorem multiply (a b dst : Param) : Statement (.multiply a b dst) := of_code (by simp [Instr.code]) (by simp [Instr.params])
theorem input (dst : Param) : Statement (.input dst) := of_code (by simp [Instr.code]) (by simp [Instr.params])
theorem output (a : Param) : Statement (.output a) := of_code (by simp [Instr.code]) (by simp [Instr.params])
theorem jumpIfTrue (cond target : Param) : Statement (.jumpIfTrue cond target) :=
  of_code (by simp [Instr.code]) (by simp [Instr.params])
theorem jumpIfFalse (cond target : Param) : Statement (.jumpIfFalse cond target) :=
  of_code (by simp [Instr.code]) (by simp [Instr.params])
theorem lessThan (a b dst : Param) : Statement (.lessThan a b dst) := of_code (by simp [Instr.code]) (by simp [Instr.params])
theorem equalTo (a b dst : Param) : Statement (.equalTo a b dst) := of_code (by simp [Instr.code]) (by simp [Instr.params])
theorem adjustRelativeBase (a : Param) : Statement (.adjustRelativeBase a) := of_code (by simp [Instr.code]) (by simp [Instr.params])
theorem stop : Statement .stop := of_code (by simp [Instr.code]) (by simp [Instr.params])

end Sys2Proof.Laws.EncodedCells
end

