-- ==== Sys2Proof/Tests/Slice0.lean ====
section
/-! SUPPORT. The model's own tests. Each expected result is taken from the spec: a vector S<n>, V<n> or P<n> of
`95_test_vectors.md`, or a word computed by hand from `30_encoding.md` R62. Every machine test is one step. The last part
gives, for each statement with hypotheses, a concrete case that meets them. -/

namespace Sys2Proof.Tests

open Sys2Proof Sys2Proof.Machine

/-- 2^63 - 1, called MAX in the vectors. -/
def max64 : Word := 0x7FFFFFFFFFFFFFFF

/-- -2^63, called MIN in the vectors. -/
def min64 : Word := 0x8000000000000000

/-- The state after `Construct(image)` with input values ready, at `pc` with relative base `rb`. -/
def start (image : List Word) (inputs : List Word := []) (pc rb : Word := 0) : State :=
  { construct image with inputs := inputs, pc := pc, rb := rb }

/-- The state one step later. -/
def after (image : List Word) (inputs : List Word := []) (pc rb : Word := 0) : Option State :=
  nextState? (step (start image inputs pc rb))

/-- The step faults: FCAUSE and FINFO as given and nothing else changed. -/
def faultsWith (s : State) (fcause : BitVec 3) (finfo : Word) : Prop :=
  nextState? (step s) = some { s with status := .faulted, fcause := fcause, finfo := finfo }

/-- A parameter in Position mode. -/
def pos (raw : Word) : Param := ⟨.position, raw⟩
/-- A parameter in Immediate mode. -/
def imm (raw : Word) : Param := ⟨.immediate, raw⟩
/-- A parameter in Relative mode. -/
def rel (raw : Word) : Param := ⟨.relative, raw⟩

/-! ## WellFormed: an ill-formed term for each check is refused -/

theorem test_wellFormed_refuses_add : (Instr.add (pos 0) (pos 0) (imm 0)).wellFormed = false := by decide
theorem test_wellFormed_refuses_multiply : (Instr.multiply (pos 0) (pos 0) (imm 0)).wellFormed = false := by decide
theorem test_wellFormed_refuses_input : (Instr.input (imm 0)).wellFormed = false := by decide
theorem test_wellFormed_refuses_lessThan : (Instr.lessThan (pos 0) (pos 0) (imm 0)).wellFormed = false := by decide
theorem test_wellFormed_refuses_equalTo : (Instr.equalTo (pos 0) (pos 0) (imm 0)).wellFormed = false := by decide
theorem test_wellFormed_accepts : (Instr.add (imm 0) (rel 0) (rel 0)).wellFormed = true := by decide

/-! ## Decoding and encoding: the words of 95_test_vectors.md section 2.1, or computed from R62 -/

theorem test_decode_add : decode [22201, 7, 8, 9, 5] = .ok (.add (rel 7) (rel 8) (rel 9), [5]) := by decide
theorem test_decode_multiply : decode [1002, 4, 3, 4] = .ok (.multiply (pos 4) (imm 3) (pos 4), []) := by decide
theorem test_decode_input : decode [203, -3] = .ok (.input (rel (-3)), []) := by decide
theorem test_decode_output : decode [204, -1] = .ok (.output (rel (-1)), []) := by decide
theorem test_decode_jumpIfTrue : decode [1005, 14, 0] = .ok (.jumpIfTrue (pos 14) (imm 0), []) := by decide
theorem test_decode_jumpIfFalse : decode [1006, 101, 0] = .ok (.jumpIfFalse (pos 101) (imm 0), []) := by decide
theorem test_decode_lessThan : decode [1107, -1, 0, 5] = .ok (.lessThan (imm (-1)) (imm 0) (pos 5), []) := by decide
theorem test_decode_equalTo : decode [1008, 100, 16, 101] = .ok (.equalTo (pos 100) (imm 16) (pos 101), []) := by decide
theorem test_decode_adjustRelativeBase : decode [109, 1] = .ok (.adjustRelativeBase (imm 1), []) := by decide
theorem test_decode_stop : decode [99, 1] = .ok (.stop, [1]) := by decide
theorem test_encode_multiply : encode (.multiply (imm 6) (imm 7) (rel 5)) = [21102, 6, 7, 5] := by decide
theorem test_encode_jumpIfFalse : encode (.jumpIfFalse (pos 101) (imm 0)) = [1006, 101, 0] := by decide
theorem test_decodeTableWord_cells :
    decodeTableWord 256 (1102 + 3 * 2 ^ 64 + 4 * 2 ^ 128 + 5 * 2 ^ 192) = some (.multiply (imm 3) (imm 4) (pos 5)) := by
  decide
theorem test_decodeTableWord_refuses : decodeTableWord 64 98 = none ∧ decodeTableWord 64 (2 ^ 64 - 1) = none := by decide

/-! ## One step of each instruction -/

/-- S1 -/
theorem test_add_position : after [1, 0, 0, 0, 99] = some { start [2, 0, 0, 0, 99] with pc := 4 } := by decide
/-- V21: the adder wraps -/
theorem test_add_wraps : after [1101, max64, 1, 0, 99] = some { start [min64, max64, 1, 0, 99] with pc := 4 } := by decide
/-- S4 -/
theorem test_multiply_mixed_modes : after [1002, 4, 3, 4, 33] = some { start [1002, 4, 3, 4, 99] with pc := 4 } := by decide
/-- V23 -/
theorem test_multiply_wraps : after [1102, max64, 2, 0, 99] = some { start [-2, max64, 2, 0, 99] with pc := 4 } := by decide
/-- V13, second step: a Relative write below L; the value is consumed -/
theorem test_input_relative :
    after [109, 10, 203, -3, 99, 0, 0, 0, 0] [42] 2 10 =
      some { start [109, 10, 203, -3, 99, 0, 0, 42, 0] [] 4 10 with io := [.input 42] } := by decide
/-- V33: held, then the value goes to the overlay -/
theorem test_input_holds :
    after [3, 5, 99] = some (start [3, 5, 99]) ∧
    nextState? (step (supply 7 (start [3, 5, 99]))) =
      some { start [3, 5, 99] with mem := ⟨[3, 5, 99], [(5, 7)]⟩, pc := 2, io := [.input 7] } := by decide
/-- V12, second step -/
theorem test_output_relative :
    after [109, 2, 204, 2, 99, 66] [] 2 2 = some { start [109, 2, 204, 2, 99, 66] [] 4 2 with io := [.output 99] } := by decide
/-- V15: an unwritten cell beyond L reads 0 -/
theorem test_output_unwritten : after [4, 50, 99] = some { start [4, 50, 99] [] 2 with io := [.output 0] } := by decide
/-- V47 and V41 -/
theorem test_jumpIfTrue :
    after [5, 5, 6, 99, 0, -3, 3] = some (start [5, 5, 6, 99, 0, -3, 3] [] 3) ∧
    after [1105, 0, 4, 99, 104, 77, 99] = some (start [1105, 0, 4, 99, 104, 77, 99] [] 3) := by decide
/-- V43, both steps -/
theorem test_jumpIfTrue_negative_target :
    after [1105, 1, -7, 99] = some (start [1105, 1, -7, 99] [] (-7)) ∧
    faultsWith (start [1105, 1, -7, 99] [] (-7)) 4 (-7) := by
  unfold faultsWith; decide
/-- V42 and V42b -/
theorem test_jumpIfFalse :
    after [1106, 0, 4, 99, 104, 77, 99] = some (start [1106, 0, 4, 99, 104, 77, 99] [] 4) ∧
    after [1106, 5, 4, 104, 66, 99, 104, 77, 99] = some (start [1106, 5, 4, 104, 66, 99, 104, 77, 99] [] 3) := by decide
/-- V50 and V52: signed -/
theorem test_lessThan_signed :
    after [1107, -1, 0, 5, 99, 7] = some (start [1107, -1, 0, 5, 99, 1] [] 4) ∧
    after [1107, min64, max64, 5, 99, 7] = some (start [1107, min64, max64, 5, 99, 1] [] 4) := by decide
/-- V53: strict -/
theorem test_lessThan_strict : after [1107, 3, 3, 5, 99, 7] = some (start [1107, 3, 3, 5, 99, 0] [] 4) := by decide
/-- V57 and V55 -/
theorem test_equalTo :
    after [8, 5, 6, 7, 99, -4, -4, 9] = some (start [8, 5, 6, 7, 99, -4, -4, 1] [] 4) ∧
    after [1108, min64, max64, 5, 99, 7] = some (start [1108, min64, max64, 5, 99, 0] [] 4) := by decide
/-- V64, second step: a Relative operand uses the old `rb` -/
theorem test_adjustRelativeBase_relative :
    after [109, 3, 209, 1, 99] [] 2 3 = some (start [109, 3, 209, 1, 99] [] 4 102) := by decide
/-- V62, second step -/
theorem test_adjustRelativeBase_wraps :
    after [109, max64, 109, 1, 99] [] 2 max64 = some (start [109, max64, 109, 1, 99] [] 4 min64) := by decide
/-- V1 and V2 -/
theorem test_stop :
    after [99] = some { start [99] with status := .halted } ∧
    after [10099] = some { start [10099] with status := .halted } := by decide

/-! ## Faults, the corners of the address space, and the host's word -/

/-- V5, V6, V7, V8, V9, V70 -/
theorem test_invalidOpcode :
    faultsWith (start [0]) 1 0 ∧ faultsWith (start []) 1 0 ∧ faultsWith (start [-1]) 1 (-1) ∧
    faultsWith (start [-99]) 1 (-99) ∧ faultsWith (start [100]) 1 100 ∧ faultsWith (start [31198]) 1 31198 := by
  unfold faultsWith; decide
/-- V71, V73, V74, V79b -/
theorem test_invalidParameterMode :
    faultsWith (start [13101, 0, 0, 0]) 2 13101 ∧ faultsWith (start [301, 0, 0, 0, 99]) 2 301 ∧
    faultsWith (start [30001, 0, 0, 0, 99]) 2 30001 ∧ faultsWith (start [904, 1, 99]) 2 904 := by
  unfold faultsWith; decide
/-- V34 (the input is not consumed), V72, V79c, V79d -/
theorem test_invalidWriteTarget :
    faultsWith (start [103, 0, 99] [5]) 3 103 ∧ faultsWith (start [10001, -1, 0, 0]) 3 10001 ∧
    faultsWith (start [10007, 1, 2, 3, 99]) 3 10007 ∧ faultsWith (start [11108, 1, 2, 3, 99]) 3 11108 := by
  unfold faultsWith; decide
/-- V35, V45, V77, V78, V17, V19 (second step) -/
theorem test_negativeAddress :
    faultsWith (start [3, -1, 99] [5]) 4 (-1) ∧ faultsWith (start [5, 4, -7, 99, 0]) 4 (-7) ∧
    faultsWith (start [1101, 1, 1, -5, 99]) 4 (-5) ∧ faultsWith (start [4, -1, 99]) 4 (-1) ∧
    faultsWith (start [204, -1, 99]) 4 (-1) ∧
    faultsWith (start [109, max64, 22201, 1, 1, 1, 99] [] 2 max64) 4 min64 := by
  unfold faultsWith; decide
/-- V85, V86 and V87: the last addresses -/
theorem test_top_of_memory :
    faultsWith { start [] [] max64 with mem := ⟨[], [(2 ^ 63 - 1, 1101)]⟩ } 4 min64 ∧
    nextState? (step { start [] [] max64 with mem := ⟨[], [(2 ^ 63 - 1, 99)]⟩ }) =
      some { start [] [] max64 with mem := ⟨[], [(2 ^ 63 - 1, 99)]⟩, status := .halted } ∧
    nextState? (step { start [] [] (max64 - 1) with mem := ⟨[], [(2 ^ 63 - 2, 104), (2 ^ 63 - 1, 5)]⟩ }) =
      some { start [] [] min64 with mem := ⟨[], [(2 ^ 63 - 2, 104), (2 ^ 63 - 1, 5)]⟩, io := [.output 5] } := by
  unfold faultsWith; decide
/-- R82: a further step of a halted or faulted machine changes nothing -/
theorem test_no_step_after_the_end :
    nextState? (step { start [99] with status := .halted }) = some { start [99] with status := .halted } ∧
    nextState? (step { start [104, 1] with status := .faulted, fcause := 1 }) =
      some { start [104, 1] with status := .faulted, fcause := 1 } := by decide
/-- The host's word runs as the first instruction after reset: Add #2, #3, [0] -/
theorem test_withFetchWord :
    (nextState? (step (State.reset.withFetchWord 256 (1101 + 2 * 2 ^ 64 + 3 * 2 ^ 128)))).map (fun t => (t.mem.get 0, t.pc)) =
      some (5, 4) := by decide

/-! ## Witnesses: a case that meets the hypotheses of each statement, for each clause at a boundary of its range -/

/-- One dense cell, and an overlay entry at the first address beyond it. -/
def split : State :=
  { construct [7] with mem := ⟨[7], [(1, 5)]⟩ }

theorem start_inv : (start [99] [1]).Inv :=
  ⟨by decide, fun _ => by decide, fun h => absurd h (by decide), fun h => absurd h (by decide)⟩

/-- The last address of the image and the first one beyond it. -/
theorem witness_ConstructionGivesTheResetState :
    (1 < ([4, 6] : List Word).length ∧ (construct [4, 6]).mem.get 1 = 6) ∧
    (([4, 6] : List Word).length ≤ 2 ∧ (construct [4, 6]).mem.get 2 = 0) := by decide

theorem witness_ConstructionMeetsTheInvariant : ([99] : List Word).length < 2 ^ 63 := by decide

theorem witness_StepKeepsTheInvariant : ∃ s t : State, s.Inv ∧ step s = .next t ∧ t.status = .halted :=
  ⟨start [99] [1], _, start_inv, rfl, rfl⟩

/-- The clauses at -1; at the last dense address; at the first overlay address, with and without an entry; at the last
address. -/
theorem witness_MemReadReturnsTheAbstractContent :
    split.mem.wf = true ∧ (-1 : Word).toInt < 0 ∧
    (0 ≤ (0 : Word).toInt ∧ (0 : Word).toNat < split.mem.dense.length) ∧
    (0 ≤ (1 : Word).toInt ∧ split.mem.dense.length ≤ (1 : Word).toNat ∧ ((1 : Word).toNat, 5) ∈ split.mem.overlay) ∧
    (0 ≤ max64.toInt ∧ split.mem.dense.length ≤ max64.toNat ∧ ∀ v, (max64.toNat, v) ∉ split.mem.overlay) := by
  refine ⟨by decide, by decide, by decide, by decide, by decide, by decide, ?_⟩
  simp [split, max64]

/-- A negative address; the last dense address; the first overlay address, where a 0 leaves no entry. -/
theorem witness_MemWriteUpdatesExactlyOneCell :
    split.mem.wf = true ∧ min64.toInt < 0 ∧
    (0 ≤ (0 : Word).toInt ∧ (0 : Word).toNat < split.mem.dense.length) ∧
    (0 ≤ (1 : Word).toInt ∧ split.mem.dense.length ≤ (1 : Word).toNat ∧ (split.mem.set 1 0).overlay = []) := by decide

/-- An address of the image, and the last address. -/
theorem witness_AddressesRetainTheirLastWrite :
    ([7] : List Word).length < 2 ^ 63 ∧ 0 < 2 ^ 63 ∧ 2 ^ 63 - 1 < 2 ^ 63 ∧
    (∀ w ∈ ([(0, 3)] : List (Nat × Word)), w.1 < 2 ^ 63) ∧
    (∀ w ∈ ([(1, 4)] : List (Nat × Word)), w.1 < 2 ^ 63 ∧ w.1 ≠ 0) ∧
    (∀ w ∈ ([(1, 4)] : List (Nat × Word)), w.1 < 2 ^ 63 ∧ w.1 ≠ 2 ^ 63 - 1) := by decide

/-- A write beyond the dense segment. -/
theorem witness_DenseLengthNeverChanges : ∃ t, Sys2Proof.core.run 1 (start [1101, 7, 8, 50, 99]) = .next t ∧ t.pc = 4 :=
  ⟨_, rfl, rfl⟩

/-- The same cells, once in the dense segment and once in the overlay. -/
theorem witness_DenseOverlaySplitIsUnobservable :
    ∃ s₁ s₂ t₁ t₂ : State, s₁.mem.wf = true ∧ s₂.mem.wf = true ∧ s₁.sameContent s₂ ∧ s₁ ≠ s₂ ∧
      Sys2Proof.core.run 1 s₁ = .next t₁ ∧ Sys2Proof.core.run 1 s₂ = .next t₂ := by
  refine ⟨start [99], { start [] with mem := ⟨[], [(0, 99)]⟩ }, _, _, by decide, by decide, ?_, by decide, rfl, rfl⟩
  refine ⟨fun a => ?_, rfl, rfl, rfl, rfl, rfl, rfl, rfl⟩
  rcases a with _ | a <;> simp [start, construct, Memory.get, overlayGet]

/-- The clauses at their boundaries: -1; code 98; digit 3. -/
theorem witness_IllegalOpcodeWordsAreRejectedByName :
    ((-1 : Word).toInt < 0) ∧
    (0 ≤ (98 : Word).toInt ∧ ¬ Rule.inTable ((98 : Word).toInt % 100)) ∧
    (0 ≤ (301 : Word).toInt ∧ Rule.inTable ((301 : Word).toInt % 100) ∧
      ∃ i ∈ Rule.params (301 : Word).toInt, 3 ≤ Rule.digit (301 : Word).toInt i) := by decide

/-- The last clause for parameter 1 of an Input. -/
theorem witness_IllegalOpcodeWordsAreRejectedByName_write :
    0 ≤ (103 : Word).toInt ∧ Rule.inTable ((103 : Word).toInt % 100) ∧
      (∀ i ∈ Rule.params (103 : Word).toInt, Rule.digit (103 : Word).toInt i < 3) ∧
      ∃ i ∈ Rule.params (103 : Word).toInt, Rule.isWrite ((103 : Word).toInt % 100) i ∧ Rule.digit (103 : Word).toInt i = 1 := by
  decide

/-- All three modes at their greatest digit, with a write parameter. -/
theorem witness_LegalOpcodeWordsDecodeByTheirDigits :
    0 ≤ (22201 : Word).toInt ∧ Rule.inTable ((22201 : Word).toInt % 100) ∧
      (∀ i ∈ Rule.params (22201 : Word).toInt, Rule.digit (22201 : Word).toInt i < 3) ∧
      (∀ i ∈ Rule.params (22201 : Word).toInt,
        Rule.isWrite ((22201 : Word).toInt % 100) i → Rule.digit (22201 : Word).toInt i ≠ 1) := by decide

/-- The greatest number of excess digits that 64 bits admit for a Stop. -/
theorem witness_ExcessDigitsHaveNoEffect :
    decodeOpcode 99 = .ok ⟨.stop, []⟩ ∧
    (99 : Word).toNat + 92233720368547757 * 10 ^ (2 + (⟨.stop, []⟩ : Opcode).op.nparams) < 2 ^ 63 := by decide

theorem witness_DecodeAndEncodeAreARetraction :
    (Instr.add (imm 2) (imm 3) (pos 5)).wellFormed = true ∧
    (Instr.add (imm 2) (imm 3) (pos 5)).opcodeWord.toNat + 11 * 10 ^ (2 + 3) < 2 ^ 63 ∧
    decode [1101101, 2, 3, 5, 99] = .ok (.add (imm 2) (imm 3) (pos 5), [99]) := by decide

theorem witness_DecodedInstructionsAreWellFormed : decode [203, -3, 99] = .ok (.input (rel (-3)), [99]) := by decide

/-- Every mode; Position and Relative on both sides of the sign, the adder's wrap included. -/
theorem witness_ReadParameterValue :
    (imm 3).mode = .immediate ∧
    ((pos 0).mode = .position ∧ 0 ≤ (pos 0).raw.toInt ∧ 0 ≤ (pos max64).raw.toInt ∧ (pos (-1)).raw.toInt < 0) ∧
    ((rel 0).mode = .relative ∧ 0 ≤ (wrap64 ((start [] [] 0 max64).rb.toInt + (rel 0).raw.toInt)).toInt ∧
      (wrap64 ((start [] [] 0 max64).rb.toInt + (rel 1).raw.toInt)).toInt < 0) := by decide

theorem witness_WriteParameterAddress :
    (imm 3).mode = .immediate ∧
    ((pos 0).mode = .position ∧ 0 ≤ (pos 0).raw.toInt ∧ (pos (-1)).raw.toInt < 0) ∧
    ((rel 0).mode = .relative ∧ 0 ≤ (wrap64 ((start [] [] 0 max64).rb.toInt + (rel 0).raw.toInt)).toInt ∧
      (wrap64 ((start [] [] 0 max64).rb.toInt + (rel 1).raw.toInt)).toInt < 0) ∧
    wa (pos max64) (start []) = .ok max64 := by decide

/-- The last address, where the parameter address wraps and where it does not. -/
theorem witness_AddersWrapModulo64Bits :
    (0 ≤ (start [] [] max64).pc.toInt ∧ (paramAddress (start [] [] max64) 1).toInt < 0 ∧
      ¬ (paramAddress (start [] [] max64) 0).toInt < 0) ∧
    (rel 1).mode = .relative ∧
    (rd (imm (-1)) (start [] [] 0 min64) = .ok (-1) ∧
      (nextState? (exec (.adjustRelativeBase (imm (-1))) (start [] [] 0 min64))).isSome = true) ∧
    (start [] [] 0 min64).rb.toInt = -2 ^ 63 := by decide

theorem witness_AddAndMultiplyWrap :
    (-2 ^ 63 ≤ max64.toInt + (0 : Word).toInt ∧ max64.toInt + (0 : Word).toInt < 2 ^ 63) ∧
    (-2 ^ 63 ≤ min64.toInt * (1 : Word).toInt ∧ min64.toInt * (1 : Word).toInt < 2 ^ 63) ∧
    max64.toInt ≠ -2 ^ 63 := by decide

/-- A bad parameter in each place. -/
theorem witness_EveryParameterIsResolvedFirst :
    (rel 0).mode ≠ .immediate ∧
    rd (pos (-1)) (start []) = .error (.negativeAddress (-1)) ∧
    (rd (imm 0) (start []) = .ok 0 ∧ rd (rel (-2)) (start []) = .error (.negativeAddress (-2))) ∧
    wa (pos (-3)) (start []) = .error (.negativeAddress (-3)) := by decide

/-- Add, Multiply, LessThan and EqualTo on cells 0 and 5, into the cell of the second. -/
theorem witness_storing_instructions :
    rd (pos 0) (start [20]) = .ok 20 ∧ rd (rel 5) (start [20]) = .ok 0 ∧ wa (pos 5) (start [20]) = .ok 5 := by decide

theorem witness_AddWritesTheSum : ∃ s t, rd (imm 20) s = .ok 20 ∧ rd (imm 22) s = .ok 22 ∧ wa (pos 7) s = .ok 7 ∧
    exec (.add (imm 20) (imm 22) (pos 7)) s = .next t ∧ t.mem.get 7 = 42 :=
  ⟨start [], _, rfl, rfl, rfl, rfl, by decide⟩

theorem witness_MultiplyWritesTheProduct : ∃ s t, rd (imm (-3)) s = .ok (-3) ∧ rd (imm 4) s = .ok 4 ∧ wa (pos 0) s = .ok 0 ∧
    exec (.multiply (imm (-3)) (imm 4) (pos 0)) s = .next t ∧ t.mem.get 0 = -12 :=
  ⟨start [], _, rfl, rfl, rfl, rfl, by decide⟩

theorem witness_InputStoresTheNextValue : ∃ s t, wa (pos 9) s = .ok 9 ∧ s.inputs = 8 :: [6] ∧
    exec (.input (pos 9)) s = .next t ∧ t.mem.get 9 = 8 := ⟨start [] [8, 6], _, rfl, rfl, rfl, rfl⟩

theorem witness_InputHoldsUntilAValueIsSupplied :
    (start [3, 5, 99]).status = .running ∧ fetch (start [3, 5, 99]) = .ok (.input (pos 5)) ∧
    wa (pos 5) (start [3, 5, 99]) = .ok 5 ∧ (start [3, 5, 99]).inputs = [] := by decide

theorem witness_OutputEmitsTheValue : rd (pos 3) (start [4, 3, 99, 55]) = .ok 55 := by decide

/-- A condition on each side: zero and the most negative value. -/
theorem witness_JumpIfTrueSetsPc :
    rd (imm 0) (start []) = .ok 0 ∧ rd (imm min64) (start []) = .ok min64 ∧ rd (imm (-7)) (start []) = .ok (-7) := by decide

theorem witness_JumpIfFalseSetsPc : ∃ s t, rd (imm 0) s = .ok 0 ∧ rd (imm 4) s = .ok 4 ∧
    exec (.jumpIfFalse (imm 0) (imm 4)) s = .next t ∧ t.pc = 4 := ⟨start [], _, rfl, rfl, rfl, rfl⟩

theorem witness_LessThanWritesOneOrZero : ∃ s t, rd (imm min64) s = .ok min64 ∧ rd (imm max64) s = .ok max64 ∧
    wa (pos 5) s = .ok 5 ∧ exec (.lessThan (imm min64) (imm max64) (pos 5)) s = .next t ∧ t.mem.get 5 = 1 :=
  ⟨start [], _, rfl, rfl, rfl, rfl, rfl⟩

theorem witness_EqualToWritesOneOrZero : ∃ s t, rd (imm 3) s = .ok 3 ∧ rd (pos 0) s = .ok 3 ∧
    wa (pos 0) s = .ok 0 ∧ exec (.equalTo (imm 3) (pos 0) (pos 0)) s = .next t ∧ t.mem.get 0 = 1 :=
  ⟨start [3], _, rfl, rfl, rfl, rfl, rfl⟩

theorem witness_AdjustRelativeBaseAddsToRb : rd (rel 1) (start [109, 3, 209, 1, 99] [] 2 3) = .ok 99 := by decide

/-- The last address, with excess digits. -/
theorem witness_StopHalts :
    let s := { start [] [] max64 with mem := ⟨[], [(2 ^ 63 - 1, 10099)]⟩ }
    s.status = .running ∧ 0 ≤ s.pc.toInt ∧ 0 ≤ (s.mem.get s.pc.toNat).toInt ∧ (s.mem.get s.pc.toNat).toInt % 100 = 99 := by
  decide

theorem witness_ImmediateWriteTargetFaults : (Instr.input (imm 0)).wellFormed = false := by decide

/-- A completing store, its fault, and an Input. -/
theorem witness_StoringInstructionsChangeOneCell :
    (∃ t, exec (.add (imm 1) (imm 2) (pos 0)) (start [5]) = .next t ∧ t.status ≠ .faulted ∧ wa (pos 0) (start [5]) = .ok 0) ∧
    (∃ t, exec (.equalTo (imm 1) (imm 2) (pos (-1))) (start [5]) = .next t ∧
      wa (pos (-1)) (start [5]) = .error (.negativeAddress (-1))) ∧
    (∃ t, exec (.input (pos 0)) (start [5] [6]) = .next t ∧ t.mem.get 0 = 6) :=
  ⟨⟨_, rfl, by decide, rfl⟩, ⟨_, rfl, rfl⟩, ⟨_, rfl, rfl⟩⟩

theorem witness_NonStoringInstructionsLeaveMemory :
    (∃ t, exec (.output (imm 1)) (start [5]) = .next t ∧ t.status ≠ .faulted) ∧
    (∃ t, exec (.jumpIfTrue (imm 1) (imm 2)) (start [5]) = .next t ∧ t.status ≠ .faulted) ∧
    (∃ t, exec (.adjustRelativeBase (imm 1)) (start [5]) = .next t ∧ t.status ≠ .faulted) ∧
    (∃ t, exec .stop (start [5]) = .next t ∧ t.status ≠ .faulted) :=
  ⟨⟨_, rfl, by decide⟩, ⟨_, rfl, by decide⟩, ⟨_, rfl, by decide⟩, ⟨_, rfl, by decide⟩⟩

/-- A word with excess digits; and a Stop in the last cell of the address space. -/
theorem witness_StepRunsTheDecodedInstruction :
    ((start [1104, 7, 99]).status = .running ∧ 0 ≤ (start [1104, 7, 99]).pc.toInt ∧
      (start [1104, 7, 99]).pc.toInt + (Instr.output (imm 7)).params.length < 2 ^ 63 ∧
      decode ((List.range 4).map fun k => (start [1104, 7, 99]).mem.get ((start [1104, 7, 99]).pc.toNat + k)) =
        .ok (.output (imm 7), [99, 0])) ∧
    (0 ≤ max64.toInt ∧ max64.toInt + Instr.stop.params.length < 2 ^ 63 ∧
      decode ((List.range 4).map fun k => (⟨[], [(2 ^ 63 - 1, 99)]⟩ : Memory).get (max64.toNat + k)) =
        .ok (.stop, [0, 0, 0])) := by decide

theorem witness_NoStepUnlessRunning :
    (halt (start [99])).status ≠ .running ∧ (start [99]).status = .running ∧
    ((start [3, 5, 99]).status = .running ∧ (start [3, 5, 99]).waits = true) := by decide

theorem witness_StepIsTheStepOfTheRule : (start [1101, 1, 2, 0]).mem.wf = true := by decide

/-- A state whose first failed check is the mode of the write parameter, before the negative address; and one that passes
every check. -/
theorem witness_FirstFailedCheckIsReported :
    ((start [10001, -1, 0, 0]).status = .running ∧ Rule.firstFault (Rule.view (start [10001, -1, 0, 0])) = some (3, 10001)) ∧
    ((start [99]).status = .running ∧ Rule.firstFault (Rule.view (start [99])) = none ∧
      (nextState? (step (start [99]))).isSome = true) := by decide

theorem witness_FaultingStepHasNoEffect : ∃ t, (start [103, 0, 99] [5]).status = .running ∧
    step (start [103, 0, 99] [5]) = .next t ∧ t.status = .faulted := ⟨_, rfl, rfl, rfl⟩

theorem witness_FaultsDoNotDependOnTheInput : ∃ t, (start [3, -1, 99]).status = .running ∧
    step (start [3, -1, 99]) = .next t ∧ t.status = .faulted ∧
    step { start [3, -1, 99] with inputs := [5] } = .next { t with inputs := [5] } := ⟨_, rfl, rfl, rfl, rfl⟩

theorem witness_OnlyAdjustRelativeBaseChangesRb : ∃ t, step (start [109, 1, 99]) = .next t ∧ t.rb ≠ (start [109, 1, 99]).rb :=
  ⟨_, rfl, by decide⟩

theorem witness_HaltedExactlyByStop : ∃ t, (start [10099]).status = .running ∧ step (start [10099]) = .next t ∧
    t.status = .halted := ⟨_, rfl, rfl, rfl⟩

/-- A jump, and a step that goes on in order. -/
theorem witness_OnlyJumpsLeaveSequentialOrder :
    (∃ t, (start [1105, 1, 4]).status = .running ∧ step (start [1105, 1, 4]) = .next t ∧ t.pc ≠ (start [1105, 1, 4]).pc) ∧
    (∃ t, (start [104, 1]).status = .running ∧ step (start [104, 1]) = .next t ∧ t.pc ≠ (start [104, 1]).pc) :=
  ⟨⟨_, rfl, rfl, by decide⟩, ⟨_, rfl, rfl, by decide⟩⟩

theorem witness_NegativeJumpTargetFaultsAtTheNextFetch :
    (start []).status = .running ∧ rd (imm 1) (start []) = .ok 1 ∧ rd (imm 0) (start []) = .ok 0 ∧
    rd (imm (-7)) (start []) = .ok (-7) ∧ (-7 : Word).toInt < 0 ∧ (1 : Word) ≠ 0 := by decide

/-- V81: 50 + 49 goes into the cell after the Add, in the overlay, and is the word of a Stop. -/
theorem witness_StoredCellIsExecutedNext_stop :
    let s := start [1101, 50, 49, 4]
    s.mem.wf = true ∧ s.status = .running ∧ fetch s = .ok (.add (imm 50) (imm 49) (pos 4)) ∧ wa (pos 4) s = .ok 4 ∧
    rd (imm 50) s = .ok 50 ∧ rd (imm 49) s = .ok 49 ∧ (99 : Word) = wrap64 ((50 : Word).toInt + (49 : Word).toInt) ∧
    wrap64 (s.pc.toInt + 1 + 3) = 4 ∧ decodeOpcode 99 = .ok ⟨.stop, []⟩ ∧ 0 ≤ (99 : Word).toInt ∧ (99 : Word).toInt % 100 = 99 := by
  decide

/-- V30 with 98 for 99: an Input stores an illegal word into the cell after itself. -/
theorem witness_StoredCellIsExecutedNext_illegal :
    let s := start [3, 2, 0] [98]
    s.mem.wf = true ∧ s.status = .running ∧ fetch s = .ok (.input (pos 2)) ∧ wa (pos 2) s = .ok 2 ∧ s.inputs = 98 :: [] ∧
    wrap64 (s.pc.toInt + 1 + 1) = 2 ∧ decodeOpcode 98 = .error (.invalidOpcode 98) := by decide

/-- An Input stores the word of an Add into the last cell of the address space, where its parameters have no cells. -/
theorem witness_StoredCellIsExecutedNext_top :
    let s : State := { start [] [1101] (max64 - 2) with mem := ⟨[], [(2 ^ 63 - 3, 3), (2 ^ 63 - 2, max64)]⟩ }
    s.mem.wf = true ∧ s.status = .running ∧ fetch s = .ok (.input (pos max64)) ∧ wa (pos max64) s = .ok max64 ∧
    wrap64 (s.pc.toInt + 1 + 1) = max64 ∧ decodeOpcode 1101 = .ok ⟨.add, [.immediate, .immediate, .position]⟩ ∧
    (nextState? (step s)).map (fun t => (t.pc, fetchRaws t [1, 2, 3])) =
      some (max64, .error (.negativeAddress min64)) := by decide

/-- V83: the first Add stores 1 into the first parameter of the second. -/
theorem witness_StoredCellIsExecutedNext_parameter :
    let s := start [1101, 1, 0, 5, 1101, 2, 0, 5, 4, 5, 99]
    s.mem.wf = true ∧ s.status = .running ∧ fetch s = .ok (.add (imm 1) (imm 0) (pos 5)) ∧ wa (pos 5) s = .ok 5 ∧
    rd (imm 1) s = .ok 1 ∧ rd (imm 0) s = .ok 0 ∧ (1 : Word) = wrap64 ((1 : Word).toInt + (0 : Word).toInt) ∧
    (nextState? (step s)).map (fun t => (fetch t, paramAddress t (0 + 1))) =
      some (.ok (.add (imm 1) (imm 0) (pos 5)), 5) := by decide

/-- An input call, an output call and neither. -/
theorem witness_StepMakesAtMostOneIoCall :
    (∃ t, step (start [3, 2] [8]) = .next t ∧ t.io = [.input 8]) ∧ (∃ t, step (start [104, 1]) = .next t ∧ t.io = [.output 1]) ∧
    (∃ t, step (start [99]) = .next t ∧ t.io = []) := ⟨⟨_, rfl, rfl⟩, ⟨_, rfl, rfl⟩, ⟨_, rfl, rfl⟩⟩

/-- In the middle of a run: one input value is taken in both, and the second environment has another one ready. -/
theorem witness_RunsAreDeterminedByImageAndInputs :
    ∃ s₁ s₂ t₁ t₂ : State, s₁.sameButInputs s₂ ∧ s₁.rb = 10 ∧ step s₁ = .next t₁ ∧ step s₂ = .next t₂ ∧
      Sys2Proof.core.run 1 s₁ = .next t₁ ∧ Sys2Proof.core.run 1 s₂ = .next t₂ ∧
      t₁.inHist = t₂.inHist ∧ t₁.inHist = [42] ∧ t₁.inputs ≠ t₂.inputs :=
  ⟨start [109, 10, 203, -3, 99] [42] 2 10, start [109, 10, 203, -3, 99] [42, 5] 2 10, _, _,
    rfl, rfl, rfl, rfl, rfl, rfl, rfl, rfl, by decide⟩

/-- V30: one environment lets the core wait once, the other has the value ready and a further one. -/
theorem witness_RunsWithSuppliesAreDetermined :
    ∃ s₁ s₂ t₁ t₂ : State, s₁.sameButInputs s₂ ∧
      playMoves [.step, .supply 99, .step, .step] s₁ = .next t₁ ∧ playMoves [.step, .supply 5, .step] s₂ = .next t₂ ∧
      performedSteps [.step, .supply 99, .step, .step] s₁ = 2 ∧ performedSteps [.step, .supply 5, .step] s₂ = 2 ∧
      t₁.inHist = [99] ∧ t₂.inHist = [99] ∧ t₁.status = .halted :=
  ⟨start [3, 2, 0], start [3, 2, 0] [99], _, _, rfl, rfl, rfl, by decide, by decide, rfl, rfl, rfl⟩

theorem witness_HistoryDoesNotAffectTheRun : ∃ t, Sys2Proof.core.run 1 (start [104, 1]) = .next t ∧ t.io = [.output 1] :=
  ⟨_, rfl, rfl⟩

/-- Each run state, at the last address and beyond it. -/
theorem witness_HostInspectsOnlyAfterTheRun :
    (start [99]).status = .running ∧ (halt (start [99])).status = .halted ∧
    ({ start [99] with status := .faulted } : State).status = .faulted ∧
    2 ^ 63 - 1 < 2 ^ 63 ∧ inspect (2 ^ 63) (halt (start [99])) = none := by decide

end Sys2Proof.Tests
end

/-! SUPPORT. What one step leaves of each piece of state, and the statements of `10_state.md`. -/

namespace Sys2Proof.Machine

/-! ## What a completed instruction changes -/

/-- The seven effects of `40_step_and_operands.md` R76 stages 7 and 8, with the instruction named where it matters which
one it is. -/
inductive Effect (i : Instr) (s : State) : State → Prop where
  | store (d v : Word) (hd : 0 ≤ d.toInt) : Effect i s (stored3 s d v)
  | hold : Effect i s s
  | takeInput (d v : Word) (rest : List Word) (hd : 0 ≤ d.toInt) : Effect i s (stored1 s d v rest)
  | emit (v : Word) : Effect i s { s with pc := wrap64 (s.pc.toInt + 2), io := s.io ++ [.output v] }
  | jump (target : Word) : Effect i s { s with pc := target }
  | adjust (rb : Word) (hi : i.code = 9) : Effect i s { s with rb := rb, pc := wrap64 (s.pc.toInt + 2) }
  | stop (hi : i.code = 99) : Effect i s { s with status := .halted }

theorem nonneg_of_wa {p : Param} {s : State} {d : Word} (h : wa p s = .ok d) : 0 ≤ d.toInt := by
  obtain ⟨-, hd, rfl⟩ := wa_eq_ok.mp h
  exact hd

theorem effect_of_completes {i : Instr} {s t : State} (h : completes i s t) : Effect i s t := by
  cases i with
  | add | multiply | lessThan | equalTo =>
    obtain ⟨v1, v2, d, -, -, hd, rfl⟩ := h
    exact .store d _ (nonneg_of_wa hd)
  | input =>
    obtain ⟨d, hd, ⟨-, rfl⟩ | ⟨v, rest, -, rfl⟩⟩ := h
    · exact .hold
    · exact .takeInput d v rest (nonneg_of_wa hd)
  | output =>
    obtain ⟨v, -, rfl⟩ := h
    exact .emit v
  | jumpIfTrue | jumpIfFalse =>
    obtain ⟨v1, v2, -, -, rfl⟩ := h
    exact .jump _
  | adjustRelativeBase =>
    obtain ⟨v, -, rfl⟩ := h
    exact .adjust _ rfl
  | stop =>
    cases h
    exact .stop rfl

/-- Memory is as before, or one legal cell of it was written. -/
def Memory.keptOrSet (m m' : Memory) : Prop :=
  m' = m ∨ ∃ a v, a < Config.addrLimit ∧ m' = m.set a v

theorem Memory.keptOrSet.length_eq {m m' : Memory} (h : m.keptOrSet m') : m'.dense.length = m.dense.length := by
  obtain rfl | ⟨a, v, -, rfl⟩ := h
  · rfl
  · exact m.set_length a v

theorem Memory.keptOrSet.wf {m m' : Memory} (h : m.keptOrSet m') (hm : m.wf = true) : m'.wf = true := by
  obtain rfl | ⟨a, v, ha, rfl⟩ := h
  · exact hm
  · exact Memory.wf_set hm ha v

theorem Effect.mem_keptOrSet {i : Instr} {s t : State} (h : Effect i s t) : s.mem.keptOrSet t.mem := by
  cases h with
  | store d v hd | takeInput d v _ hd => exact .inr ⟨d.toNat, v, toNat_lt_of_nonneg hd, rfl⟩
  | hold | emit | jump | adjust | stop => exact .inl rfl

theorem Effect.rb_eq_or_code {i : Instr} {s t : State} (h : Effect i s t) : t.rb = s.rb ∨ i.code = 9 := by
  cases h with
  | adjust _ hi => exact .inr hi
  | store | hold | takeInput | emit | jump | stop => exact .inl rfl

/-- Stop halts and leaves all else; every other instruction leaves STATUS, FCAUSE and FINFO. -/
theorem Effect.status_cases {i : Instr} {s t : State} (h : Effect i s t) :
    (i.code = 99 ∧ t = { s with status := .halted }) ∨
      (t.status = s.status ∧ t.fcause = s.fcause ∧ t.finfo = s.finfo) := by
  cases h with
  | stop hi => exact .inl ⟨hi, rfl⟩
  | store | hold | takeInput | emit | jump | adjust => exact .inr ⟨rfl, rfl, rfl⟩

theorem step_mem_keptOrSet {s t : State} (h : step s = .next t) : s.mem.keptOrSet t.mem := by
  obtain ⟨-, rfl⟩ | ⟨-, f, -, rfl⟩ | ⟨-, i, -, hc⟩ | ⟨-, i, f, -, -, rfl⟩ := step_cases h
  · exact .inl rfl
  · exact .inl rfl
  · exact (effect_of_completes hc).mem_keptOrSet
  · exact .inl rfl

/-! ## The faults of a step and what they record -/

/-- A NegativeAddress fault, with an address that is one. -/
def Fault.isNegativeAddress (f : Fault) : Prop :=
  ∃ a : Word, f = .negativeAddress a ∧ a.toInt < 0

theorem isNegativeAddress_of_rd {p : Param} {s : State} {f : Fault} (h : rd p s = .error f) : f.isNegativeAddress := by
  obtain ⟨-, ha, rfl⟩ := rd_eq_error.mp h
  exact ⟨_, rfl, ha⟩

theorem isNegativeAddress_of_wa {p : Param} {s : State} {f : Fault} (hp : p.writable = true)
    (h : wa p s = .error f) : f.isNegativeAddress := by
  obtain ⟨hm, -⟩ | ⟨-, ha, rfl⟩ := wa_eq_error.mp h
  · exact absurd hm ((writable_iff p).mp hp)
  · exact ⟨_, rfl, ha⟩

theorem isNegativeAddress_of_format3 {g : Word → Word → Word} {a b dst : Param} {s : State} {f : Fault}
    (hp : dst.writable = true) (h : format3 g a b dst s = .error f) : f.isNegativeAddress := by
  obtain ⟨hm, -⟩ | ⟨-, h | ⟨-, h | ⟨-, h⟩⟩⟩ := format3_eq_error.mp h
  · exact absurd hm ((writable_iff dst).mp hp)
  · exact isNegativeAddress_of_rd h
  · exact isNegativeAddress_of_rd h
  · exact isNegativeAddress_of_wa hp h

/-- The operand resolver raises no other fault on an instruction the decoder let through (`60_exceptions.md` R143). -/
theorem isNegativeAddress_of_faults {i : Instr} {s : State} {f : Fault} (hi : i.wellFormed = true)
    (h : faults i s f) : f.isNegativeAddress := by
  cases i with
  | add | multiply | lessThan | equalTo => exact isNegativeAddress_of_format3 hi h
  | input => exact isNegativeAddress_of_wa hi h
  | output | adjustRelativeBase => exact isNegativeAddress_of_rd h
  | jumpIfTrue | jumpIfFalse => exact h.elim isNegativeAddress_of_rd fun h => isNegativeAddress_of_rd h.2
  | stop => exact h.elim

theorem isNegativeAddress_of_fetchRaws {s : State} {is : List Nat} {f : Fault} (h : fetchRaws s is = .error f) :
    f.isNegativeAddress := by
  obtain ⟨a, ha, rfl⟩ := fetchRaws_eq_error.mp h
  have hneg := List.find?_some ha
  exact ⟨a, rfl, of_decide_eq_true hneg⟩

theorem faultRecord_of_isNegativeAddress {s : State} {f : Fault} (h : f.isNegativeAddress) :
    faultRecord (takeFault f s) := by
  obtain ⟨a, rfl, ha⟩ := h
  exact .inr ⟨rfl, ha⟩

theorem faultRecord_of_fetch {s : State} {f : Fault} (h : fetch s = .error f) : faultRecord (takeFault f s) := by
  obtain ⟨hp, rfl⟩ | ⟨hp, ⟨e, he, rfl⟩ | ⟨o, -, hraws⟩⟩ := fetch_eq_error.mp h
  · exact faultRecord_of_isNegativeAddress ⟨_, rfl, hp⟩
  · exact .inl ⟨e, hp, he, rfl, decodeFault_info he⟩
  · exact faultRecord_of_isNegativeAddress (isNegativeAddress_of_fetchRaws hraws)

/-! ## The invariant -/

theorem State.Inv.of_takeFault {s : State} {f : Fault} (hm : s.mem.wf = true) (hf : faultRecord (takeFault f s)) :
    (takeFault f s).Inv where
  mem_wf := hm
  running h := by simp at h
  halted h := by simp at h
  faulted _ := hf

theorem State.Inv.of_running {s : State} (hm : s.mem.wf = true) (hs : s.status = .running)
    (hr : s.fcause = 0 ∧ s.finfo = 0) : s.Inv where
  mem_wf := hm
  running _ := hr
  halted h := by simp [hs] at h
  faulted h := by simp [hs] at h

theorem State.Inv.of_completes {s t : State} {i : Instr} (hinv : s.Inv) (hs : s.status = .running)
    (hf : fetch s = .ok i) (hc : completes i s t) : t.Inv := by
  obtain ⟨hcause, hinfo⟩ := hinv.running hs
  have he := effect_of_completes hc
  obtain ⟨hi, rfl⟩ | ⟨hst, hcst, hist⟩ := he.status_cases
  · obtain ⟨hp, hw, hop⟩ := fetch_code hf
    exact {
      mem_wf := hinv.mem_wf
      running := by simp
      halted := fun _ => ⟨hcause, hinfo, hp, hw, by simp [hop, hi]⟩
      faulted := by simp }
  · exact .of_running (he.mem_keptOrSet.wf hinv.mem_wf) (hst.trans hs) ⟨hcst.trans hcause, hist.trans hinfo⟩

/-- Settles O3, by the four ways a step answers (`step_cases`). -/
theorem stepKeepsTheInvariant : Obligations.StepKeepsTheInvariant := by
  intro s t hinv h
  obtain ⟨-, rfl⟩ | ⟨-, f, hf, rfl⟩ | ⟨hs, i, hi, hc⟩ | ⟨-, i, f, hi, hf, rfl⟩ := step_cases h
  · exact hinv
  · exact .of_takeFault hinv.mem_wf (faultRecord_of_fetch hf)
  · exact hinv.of_completes hs hi hc
  · have hneg := isNegativeAddress_of_faults (fetch_wellFormed hi) hf
    exact .of_takeFault hinv.mem_wf (faultRecord_of_isNegativeAddress hneg)

/-- Settles O7: every step keeps Memory or sets one cell of it, and neither moves L. -/
theorem denseLengthNeverChanges : Obligations.DenseLengthNeverChanges := by
  intro n s t h
  exact run_induction (P := fun u => u.mem.dense.length = s.mem.dense.length)
    (fun u v hu huv => (step_mem_keptOrSet huv).length_eq.trans hu) n rfl h

/-- Settles O42: only a completed instruction of code 9 gives another `rb`. -/
theorem onlyAdjustRelativeBaseChangesRb : Obligations.OnlyAdjustRelativeBaseChangesRb := by
  intro s t h hrb
  obtain ⟨-, rfl⟩ | ⟨-, f, -, rfl⟩ | ⟨hs, i, hi, hc⟩ | ⟨-, i, f, -, -, rfl⟩ := step_cases h
  · exact absurd rfl hrb
  · exact absurd rfl hrb
  · obtain ⟨hp, hw, hop⟩ := fetch_code hi
    have hcode : i.code = 9 := (effect_of_completes hc).rb_eq_or_code.resolve_left hrb
    exact ⟨hs, hp, hw, by simp [hop, hcode]⟩
  · exact absurd rfl hrb

/-! ## What no step can tell apart

A step reads Memory only through `Memory.get` and never reads the history. So a Memory that answers every access alike may
stand in the place of the one a run has (R14), and earlier calls may stand before its history (R24). -/

/-- The state `s` with Memory `m` in the place of its own and earlier calls before its history. -/
def State.recast (m : Memory) (earlier : List IoEvent) (s : State) : State :=
  { s with mem := m, io := earlier ++ s.io }

/-- A correspondence of Memories that have the same content and keep it under equal writes. -/
structure Memory.Indistinguishable (M : Memory → Memory → Prop) : Prop where
  get_eq : ∀ {m m' : Memory}, M m m' → ∀ a, m'.get a = m.get a
  set_set : ∀ {m m' : Memory}, M m m' → ∀ {a : Nat}, a < Config.addrLimit → ∀ v, M (m.set a v) (m'.set a v)

theorem takeFault_recast (f : Fault) (m : Memory) (earlier : List IoEvent) (s : State) :
    takeFault f (s.recast m earlier) = (takeFault f s).recast m earlier := rfl

section SameContent

variable {s : State} {m : Memory} (hm : ∀ a, m.get a = s.mem.get a) (earlier : List IoEvent)
include hm

theorem memRead_recast (a : Word) : memRead a (s.recast m earlier) = memRead a s := by
  simp [memRead, State.recast, hm]

theorem currentOpcodeWord_recast : currentOpcodeWord (s.recast m earlier) = currentOpcodeWord s :=
  hm _

theorem rd_recast (p : Param) : rd p (s.recast m earlier) = rd p s := by
  simp only [rd, memRead_recast hm]
  rfl

theorem wa_recast (p : Param) : wa p (s.recast m earlier) = wa p s := by
  simp only [wa, currentOpcodeWord_recast hm]
  rfl

theorem fetchRaws_recast (is : List Nat) : fetchRaws (s.recast m earlier) is = fetchRaws s is := by
  induction is with
  | nil => rfl
  | cons i is ih =>
    simp only [fetchRaws, ih, memRead_recast hm]
    rfl

theorem fetch_recast : fetch (s.recast m earlier) = fetch s := by
  simp only [fetch, memRead_recast hm, fetchRaws_recast hm]
  rfl

theorem faults_recast (i : Instr) (f : Fault) : faults i (s.recast m earlier) f ↔ faults i s f := by
  cases i <;>
    simp only [faults, format3_eq_error, rd_recast hm, wa_recast hm, currentOpcodeWord_recast hm]

end SameContent

section Indistinguishable

variable {M : Memory → Memory → Prop} (hM : Memory.Indistinguishable M)
  {s t : State} {m : Memory} (hm : M s.mem m) (earlier : List IoEvent)
include hM hm

/-- For Add, Multiply, LessThan and EqualTo, which differ only in the operation. -/
theorem format3_recast {f : Word → Word → Word} {a b dst : Param} (h : format3 f a b dst s = .ok t) :
    ∃ m', M t.mem m' ∧ format3 f a b dst (s.recast m earlier) = .ok (t.recast m' earlier) := by
  obtain ⟨v1, v2, d, h1, h2, hd, rfl⟩ := format3_eq_ok.mp h
  have hget := hM.get_eq hm
  rw [← rd_recast hget earlier] at h1 h2
  have hd' : wa dst (s.recast m earlier) = .ok d := (wa_recast hget earlier dst).trans hd
  exact ⟨m.set d.toNat (f v1 v2), hM.set_set hm (toNat_lt_of_nonneg (nonneg_of_wa hd)) _, format3_ok h1 h2 hd'⟩

theorem completes_recast {i : Instr} (h : completes i s t) :
    ∃ m', M t.mem m' ∧ completes i (s.recast m earlier) (t.recast m' earlier) := by
  have hget := hM.get_eq hm
  cases i with
  | add | multiply | lessThan | equalTo =>
    obtain ⟨m', hm', h'⟩ := format3_recast hM hm earlier (format3_eq_ok.mpr h)
    exact ⟨m', hm', format3_eq_ok.mp h'⟩
  | input dst =>
    obtain ⟨d, hd, h⟩ := h
    have hd' : wa dst (s.recast m earlier) = .ok d := (wa_recast hget earlier dst).trans hd
    obtain ⟨hi, rfl⟩ | ⟨v, rest, hi, rfl⟩ := h
    · exact ⟨m, hm, d, hd', .inl ⟨hi, rfl⟩⟩
    · have hset := hM.set_set hm (toNat_lt_of_nonneg (nonneg_of_wa hd)) v
      refine ⟨m.set d.toNat v, hset, d, hd', .inr ⟨v, rest, hi, ?_⟩⟩
      simp [State.recast, stored1]
  | output a =>
    obtain ⟨v, hv, rfl⟩ := h
    refine ⟨m, hm, v, (rd_recast hget earlier a).trans hv, ?_⟩
    simp [State.recast]
  | jumpIfTrue c g | jumpIfFalse c g =>
    obtain ⟨v1, v2, h1, h2, rfl⟩ := h
    exact ⟨m, hm, v1, v2, (rd_recast hget earlier c).trans h1, (rd_recast hget earlier g).trans h2, rfl⟩
  | adjustRelativeBase a =>
    obtain ⟨v, hv, rfl⟩ := h
    exact ⟨m, hm, v, (rd_recast hget earlier a).trans hv, rfl⟩
  | stop =>
    cases h
    exact ⟨m, hm, rfl⟩

/-- The commuting square of one step. -/
theorem step_recast (h : step s = .next t) :
    ∃ m', M t.mem m' ∧ step (s.recast m earlier) = .next (t.recast m' earlier) := by
  have hget := hM.get_eq hm
  have hfetch := fetch_recast hget earlier
  obtain ⟨hs, rfl⟩ | ⟨hs, f, hf, rfl⟩ | ⟨hs, i, hi, hc⟩ | ⟨hs, i, f, hi, hf, rfl⟩ := step_cases h
  · exact ⟨m, hm, step_eq_next.mpr (.inl ⟨hs, rfl⟩)⟩
  · exact ⟨m, hm, step_eq_next.mpr (.inr ⟨hs, .inl ⟨f, hfetch.trans hf, rfl⟩⟩)⟩
  · obtain ⟨m', hm', hc'⟩ := completes_recast hM hm earlier hc
    exact ⟨m', hm', step_eq_next.mpr (.inr ⟨hs, .inr ⟨i, hfetch.trans hi, exec_eq_next.mpr (.inl hc')⟩⟩)⟩
  · have hf' := (faults_recast hget earlier i f).mpr hf
    have hexec := exec_eq_next.mpr (.inr ⟨f, hf', takeFault_recast f m earlier s⟩)
    exact ⟨m, hm, step_eq_next.mpr (.inr ⟨hs, .inr ⟨i, hfetch.trans hi, hexec⟩⟩)⟩

theorem run_recast {n : Nat} (h : Sys2Proof.core.run n s = .next t) :
    ∃ m', M t.mem m' ∧ Sys2Proof.core.run n (s.recast m earlier) = .next (t.recast m' earlier) := by
  induction n generalizing s m with
  | zero =>
    cases h
    exact ⟨m, hm, rfl⟩
  | succ n ih =>
    obtain ⟨u, hu⟩ := step_next s
    obtain ⟨m', hm', hu'⟩ := step_recast hM hm earlier hu
    rw [run_succ hu] at h
    rw [run_succ hu']
    exact ih hm' h

end Indistinguishable

/-- `10_state.md` R14: two Memories in canonical form with the same `Mem(a)` at every address. -/
def Memory.sameCells (m m' : Memory) : Prop :=
  m.wf = true ∧ m'.wf = true ∧ ∀ a, m'.get a = m.get a

theorem Memory.indistinguishable_sameCells : Memory.Indistinguishable Memory.sameCells where
  get_eq := fun ⟨_, _, hget⟩ => hget
  set_set := by
    rintro m m' ⟨hm, hm', hget⟩ a ha v
    refine ⟨Memory.wf_set hm ha v, Memory.wf_set hm' ha v, fun b => ?_⟩
    rw [Memory.get_set hm', Memory.get_set hm, hget]

theorem Memory.indistinguishable_eq : Memory.Indistinguishable Eq where
  get_eq := by
    rintro m _ rfl a
    rfl
  set_set := by
    rintro m _ rfl a - v
    rfl

theorem sameContent_iff {s t : State} :
    s.sameContent t ↔ (∀ a, t.mem.get a = s.mem.get a) ∧ t = s.recast t.mem [] := by
  cases s
  cases t
  simp [State.sameContent, State.recast, eq_comm]

/-- Settles O8: the second run is the first one over the other split of the same content. -/
theorem denseOverlaySplitIsUnobservable : Obligations.DenseOverlaySplitIsUnobservable := by
  intro n s₁ s₂ t₁ t₂ hwf₁ hwf₂ hs h₁ h₂
  obtain ⟨hget, hs₂⟩ := sameContent_iff.mp hs
  obtain ⟨m, ⟨-, -, hm⟩, hrun⟩ := run_recast Memory.indistinguishable_sameCells ⟨hwf₁, hwf₂, hget⟩ [] h₁
  rw [← hs₂, h₂] at hrun
  cases hrun
  exact sameContent_iff.mpr ⟨hm, rfl⟩

/-- Settles O49: the second run is the first one over the same Memory. -/
theorem historyDoesNotAffectTheRun : Obligations.HistoryDoesNotAffectTheRun := by
  intro n s t earlier h
  obtain ⟨_, rfl, hrun⟩ := run_recast Memory.indistinguishable_eq rfl earlier h
  exact hrun

/-! ## Construction -/

theorem construct_get_of_lt {image : List Word} {a : Nat} (h : a < image.length) :
    (construct image).mem.get a = image.getD a 0 := by
  simp [Memory.get, h]

theorem construct_get_of_le {image : List Word} {a : Nat} (h : image.length ≤ a) :
    (construct image).mem.get a = 0 := by
  simp [Memory.get, Nat.not_lt.mpr h, overlayGet, Config.unlisted]

/-- Settles O1, from what `construct` gives each field. -/
theorem constructionGivesTheResetState : Obligations.ConstructionGivesTheResetState := by
  intro image
  exact ⟨rfl, rfl, fun _ => construct_get_of_lt, fun _ => construct_get_of_le, construct_pc image, construct_rb image,
    construct_status image, construct_fcause image, construct_finfo image, rfl, rfl⟩

end Sys2Proof.Machine

/-! SUPPORT. The two accesses to Memory and what a storing instruction leaves behind: the statements of `20_memory.md`. -/

namespace Sys2Proof.Machine

/-! ## Which store holds an address -/

theorem Memory.get_of_lt {m : Memory} {a : Nat} (h : a < m.dense.length) : m.get a = m.dense.getD a 0 :=
  if_pos h

theorem Memory.get_of_le {m : Memory} {a : Nat} (h : m.dense.length ≤ a) : m.get a = overlayGet m.overlay a :=
  if_neg (Nat.not_lt.mpr h)

theorem Memory.set_of_lt {m : Memory} {a : Nat} (h : a < m.dense.length) (v : Word) :
    m.set a v = { m with dense := m.dense.set a v } :=
  if_pos h

theorem Memory.set_of_le {m : Memory} {a : Nat} (h : m.dense.length ≤ a) (v : Word) :
    m.set a v = { m with overlay := overlaySet a v m.overlay } :=
  if_neg (Nat.not_lt.mpr h)

/-- Settles O4: `memRead` answers `Memory.get`, which reads the store that holds the address. -/
theorem memReadReturnsTheAbstractContent : Obligations.MemReadReturnsTheAbstractContent := by
  intro s a hwf
  obtain ⟨-, hov⟩ := (Memory.wf_iff s.mem).mp hwf
  refine ⟨fun ha => memRead_of_neg ha s, fun ha hlt => ?_, fun ha hle => ⟨fun v hv => ?_, fun hnone => ?_⟩⟩
  · rw [memRead_of_nonneg ha, Memory.get_of_lt hlt]
  · rw [memRead_of_nonneg ha, Memory.get_of_le hle, overlayGet_of_mem hov hv]
  · rw [memRead_of_nonneg ha, Memory.get_of_le hle, overlayGet_of_not_mem hnone]
    rfl

/-- Settles O5: the new Memory is `Memory.set` of the old one. -/
theorem memWriteUpdatesExactlyOneCell : Obligations.MemWriteUpdatesExactlyOneCell := by
  intro s a v hwf
  refine ⟨fun ha => memWrite_of_neg ha v s, fun ha => ⟨s.mem.set a.toNat v, memWrite_of_nonneg ha v s,
    Memory.get_set_self hwf _ v, fun b hb => Memory.get_set_ne _ hb v, fun hlt => ?_, fun hle => ?_,
    Memory.wf_set hwf (toNat_lt_of_nonneg ha) v⟩⟩
  · simp [Memory.set_of_lt hlt]
  · simp [Memory.set_of_le hle]

/-! ## Lists of writes -/

@[simp] theorem Memory.afterWrites_nil (m : Memory) : m.afterWrites [] = m := rfl

@[simp] theorem Memory.afterWrites_cons (m : Memory) (w : Nat × Word) (ws : List (Nat × Word)) :
    m.afterWrites (w :: ws) = (m.set w.1 w.2).afterWrites ws := rfl

@[simp] theorem Memory.afterWrites_append (m : Memory) (ws ws' : List (Nat × Word)) :
    m.afterWrites (ws ++ ws') = (m.afterWrites ws).afterWrites ws' :=
  List.foldl_append

@[simp] theorem Memory.afterWrites_length (m : Memory) (ws : List (Nat × Word)) :
    (m.afterWrites ws).dense.length = m.dense.length := by
  induction ws generalizing m with
  | nil => rfl
  | cons w ws ih => simp [ih]

theorem Memory.wf_afterWrites {m : Memory} (hm : m.wf = true) {ws : List (Nat × Word)}
    (hws : ∀ w ∈ ws, w.1 < Config.addrLimit) : (m.afterWrites ws).wf = true := by
  induction ws generalizing m with
  | nil => exact hm
  | cons w ws ih =>
    obtain ⟨hw, hws⟩ := List.forall_mem_cons.mp hws
    exact ih (Memory.wf_set hm hw w.2) hws

theorem Memory.get_afterWrites_of_ne (m : Memory) {a : Nat} {ws : List (Nat × Word)} (hws : ∀ w ∈ ws, w.1 ≠ a) :
    (m.afterWrites ws).get a = m.get a := by
  induction ws generalizing m with
  | nil => rfl
  | cons w ws ih =>
    obtain ⟨hw, hws⟩ := List.forall_mem_cons.mp hws
    rw [Memory.afterWrites_cons, ih _ hws, Memory.get_set_ne m hw.symm]

theorem construct_get (image : List Word) (a : Nat) : (construct image).mem.get a = image.getD a 0 := by
  rcases Nat.lt_or_ge a image.length with h | h
  · exact construct_get_of_lt h
  · rw [construct_get_of_le h, List.getD_eq_default _ _ h]

theorem construct_mem_wf {image : List Word} (h : image.length < Config.addrLimit) :
    (construct image).mem.wf = true :=
  (Memory.wf_iff _).mpr ⟨h, rfl⟩

/-- Settles O6: writes to other addresses leave the cell, and the last write to it is what it reads. -/
theorem addressesRetainTheirLastWrite : Obligations.AddressesRetainTheirLastWrite := by
  intro image before after a v himage ha hbefore hafter
  have hne : ∀ w ∈ after, w.1 ≠ a := fun w hw => (hafter w hw).2
  have hwf : ((construct image).mem.afterWrites before).wf = true :=
    Memory.wf_afterWrites (construct_mem_wf himage) hbefore
  refine ⟨?_, ?_, by simp⟩
  · rw [Memory.get_afterWrites_of_ne _ hne, construct_get]
  · rw [Memory.afterWrites_append, Memory.afterWrites_cons, Memory.get_afterWrites_of_ne _ hne,
      Memory.get_set_self hwf]



/-! ## What a storing instruction can do -/

/-- `30_encoding.md` R56: the write parameter of an instruction, which only the five storing forms have. -/
def writeParam? : Instr → Option Param
  | .add _ _ dst | .multiply _ _ dst | .lessThan _ _ dst | .equalTo _ _ dst | .input dst => some dst
  | .output _ | .jumpIfTrue _ _ | .jumpIfFalse _ _ | .adjustRelativeBase _ | .stop => none

/-- What a storing instruction with write parameter `dst` makes of a state: it faults, stores a result, holds for a
value, or stores the value it takes. -/
inductive StoreEffect (i : Instr) (dst : Param) (s : State) : State → Prop where
  | fault (f : Fault) : StoreEffect i dst s (takeFault f s)
  | store (d v : Word) (hd : wa dst s = .ok d) : StoreEffect i dst s (stored3 s d v)
  | hold (hi : i = .input dst) : StoreEffect i dst s s
  | takeInput (d v : Word) (rest : List Word) (hi : i = .input dst) (hd : wa dst s = .ok d) :
      StoreEffect i dst s (stored1 s d v rest)

theorem storeEffect_of_completes {i : Instr} {dst : Param} {s t : State} (hi : writeParam? i = some dst)
    (h : completes i s t) : StoreEffect i dst s t := by
  cases i with
  | add | multiply | lessThan | equalTo =>
    cases hi
    obtain ⟨v1, v2, d, -, -, hd, rfl⟩ := h
    exact .store d _ hd
  | input =>
    cases hi
    obtain ⟨d, hd, ⟨-, rfl⟩ | ⟨v, rest, -, rfl⟩⟩ := h
    · exact .hold rfl
    · exact .takeInput d v rest rfl hd
  | output | jumpIfTrue | jumpIfFalse | adjustRelativeBase | stop => cases hi

theorem storeEffect_of_exec {i : Instr} {dst : Param} {s t : State} (hi : writeParam? i = some dst)
    (h : exec i s = .next t) : StoreEffect i dst s t := by
  obtain hc | ⟨f, -, rfl⟩ := exec_eq_next.mp h
  · exact storeEffect_of_completes hi hc
  · exact .fault f

section StoreEffect

variable {i : Instr} {dst : Param} {s t : State} (h : StoreEffect i dst s t)
include h

/-- `20_memory.md` R32: the only cell a storing instruction can change is the one at `wa dst s`. -/
theorem StoreEffect.mem_cases : t.mem = s.mem ∨ ∃ d v, wa dst s = .ok d ∧ t.mem = s.mem.set d.toNat v := by
  cases h with
  | fault | hold => exact .inl rfl
  | store d v hd | takeInput d v _ _ hd => exact .inr ⟨d, v, hd, rfl⟩

theorem StoreEffect.get_of_ne {d : Word} (hd : wa dst s = .ok d) {b : Nat} (hb : b ≠ d.toNat) :
    t.mem.get b = s.mem.get b := by
  obtain hmem | ⟨d', v, hd', hmem⟩ := h.mem_cases
  · rw [hmem]
  · obtain rfl : d' = d := by simpa [hd'] using hd
    rw [hmem, Memory.get_set_ne _ hb]

theorem StoreEffect.mem_eq_of_wa_error {f : Fault} (hf : wa dst s = .error f) : t.mem = s.mem := by
  obtain hmem | ⟨d, v, hd, -⟩ := h.mem_cases
  · exact hmem
  · simp [hf] at hd

theorem StoreEffect.dense_length : t.mem.dense.length = s.mem.dense.length := by
  obtain hmem | ⟨d, v, -, hmem⟩ := h.mem_cases
  · rw [hmem]
  · rw [hmem, Memory.set_length]

theorem StoreEffect.rb : t.rb = s.rb := by
  cases h with
  | fault | store | hold | takeInput => rfl

theorem StoreEffect.outHist : t.outHist = s.outHist := by
  cases h with
  | fault | store | hold => rfl
  | takeInput => simp [State.outHist, stored1]

theorem StoreEffect.io_inputs (hi : i ≠ .input dst) : t.io = s.io ∧ t.inputs = s.inputs := by
  cases h with
  | fault | store | hold => exact ⟨rfl, rfl⟩
  | takeInput _ _ _ hi' => exact absurd hi' hi

theorem StoreEffect.status (hf : t.status ≠ .faulted) :
    t.status = s.status ∧ t.fcause = s.fcause ∧ t.finfo = s.finfo := by
  cases h with
  | fault => exact absurd rfl hf
  | store | hold | takeInput => exact ⟨rfl, rfl, rfl⟩

end StoreEffect

/-- Settles O32, from the four things a storing instruction can do (`StoreEffect`). -/
theorem storingInstructionsChangeOneCell : Obligations.StoringInstructionsChangeOneCell := by
  intro i dst s t hi hexec
  have hdst : writeParam? i = some dst := by
    obtain ⟨a, b, rfl | rfl | rfl | rfl⟩ | rfl := hi <;> rfl
  have h := storeEffect_of_exec hdst hexec
  exact ⟨fun d hd b hb => h.get_of_ne hd hb, fun f hf => h.mem_eq_of_wa_error hf, h.dense_length, h.rb, h.outHist,
    h.io_inputs, h.status⟩

/-! ## The step after a store -/

section NextStep

variable {t : State} (hrun : t.status = .running)
include hrun

theorem step_of_fetch_ok {i : Instr} (hf : fetch t = .ok i) : step t = exec i t := by
  simp only [step, hrun, hf]

theorem step_of_fetch_error {f : Fault} (hf : fetch t = .error f) : step t = raise f t := by
  simp only [step, hrun, hf]

variable (hpc : 0 ≤ t.pc.toInt)
include hpc

theorem step_of_decode_error {e : DecodeError} (he : decodeOpcode (t.mem.get t.pc.toNat) = .error e) :
    step t = raise (decodeFault (t.mem.get t.pc.toNat) e) t :=
  step_of_fetch_error hrun (fetch_eq_error.mpr (.inr ⟨hpc, .inl ⟨e, he, rfl⟩⟩))

variable {o : Opcode} (ho : decodeOpcode (t.mem.get t.pc.toNat) = .ok o)
include ho

theorem step_of_fetchRaws_error {f : Fault} (hf : fetchRaws t o.op.paramIndices = .error f) : step t = raise f t :=
  step_of_fetch_error hrun (fetch_eq_error.mpr (.inr ⟨hpc, .inr ⟨o, ho, hf⟩⟩))

theorem step_of_fetchRaws_ok {raws : List Word} (hr : fetchRaws t o.op.paramIndices = .ok raws) :
    step t = exec (o.build raws) t := by
  obtain ⟨hk, rfl⟩ := fetchRaws_eq_ok.mp hr
  exact step_of_fetch_ok hrun (fetch_eq_ok.mpr ⟨hpc, o, ho, hk, rfl⟩)

end NextStep

/-- `30_encoding.md` R55: a word that selects Stop decodes, whatever its excess digits. -/
theorem decodeOpcode_of_isStopWord {w : Word} (h : isStopWord w) : decodeOpcode w = .ok ⟨.stop, []⟩ := by
  obtain ⟨hn, hw⟩ := h
  rw [toInt_of_nonneg hn] at hw
  exact decodeOpcode_eq_ok.mpr ⟨hn, by simp only [Op.code]; omega, rfl, rfl⟩

theorem step_of_isStopWord {t : State} (hrun : t.status = .running) (hpc : 0 ≤ t.pc.toInt)
    (h : isStopWord (t.mem.get t.pc.toNat)) : step t = .next { t with status := .halted } :=
  step_of_fetchRaws_ok hrun hpc (decodeOpcode_of_isStopWord h) rfl

/-- `40_step_and_operands.md` R72: the raw value of a fetched parameter is the cell at its address. -/
theorem fetch_param_raw {t : State} {j : Instr} {p : Param} {k : Nat} (hj : fetch t = .ok j)
    (hp : j.params[k]? = some p) : p.raw = t.mem.get (paramAddress t (k + 1)).toNat := by
  obtain ⟨-, o, -, -, rfl⟩ := fetch_eq_ok.mp hj
  have hk : k < o.op.nparams := by
    simpa using (List.getElem?_eq_some_iff.mp hp).1
  obtain rfl : o.param _ (k + 1) = p := by simpa [Opcode.build_params, Op.paramIndices, hk] using hp
  simp [Opcode.param, hk]

/-- The value a storing instruction stores at the address its write parameter names. -/
def storesValue (i : Instr) (dst : Param) (v : Word) (s : State) : Prop :=
  (∃ a b v1 v2, rd a s = .ok v1 ∧ rd b s = .ok v2 ∧
    ((i = .add a b dst ∧ v = wrap64 (v1.toInt + v2.toInt)) ∨
     (i = .multiply a b dst ∧ v = wrap64 (v1.toInt * v2.toInt)) ∨
     (i = .lessThan a b dst ∧ v = if v1.toInt < v2.toInt then 1 else 0) ∨
     (i = .equalTo a b dst ∧ v = if v1.toInt = v2.toInt then 1 else 0))) ∨
  (i = .input dst ∧ ∃ rest, s.inputs = v :: rest)

theorem lessThanCell_eq (x y : Word) : lessThanCell x y = if x.toInt < y.toInt then 1 else 0 := by
  simp [lessThanCell, truthCell]

theorem equalToCell_eq (x y : Word) : equalToCell x y = if x.toInt = y.toInt then 1 else 0 := by
  simp [equalToCell, truthCell, BitVec.toInt_inj]

theorem completes_of_storesValue {s : State} {i : Instr} {dst : Param} {d v : Word} (hd : wa dst s = .ok d)
    (hv : storesValue i dst v s) :
    ∃ t, completes i s t ∧ t.status = s.status ∧ t.pc = wrap64 (s.pc.toInt + 1 + i.params.length) ∧
      t.mem = s.mem.set d.toNat v := by
  obtain ⟨a, b, v1, v2, h1, h2, hop⟩ | ⟨rfl, rest, hi⟩ := hv
  · have hc : completes i s (stored3 s d v) := by
      obtain ⟨rfl, rfl⟩ | ⟨rfl, rfl⟩ | ⟨rfl, rfl⟩ | ⟨rfl, rfl⟩ := hop
      · exact ⟨v1, v2, d, h1, h2, hd, rfl⟩
      · exact ⟨v1, v2, d, h1, h2, hd, rfl⟩
      · exact ⟨v1, v2, d, h1, h2, hd, by rw [lessThanCell_eq]⟩
      · exact ⟨v1, v2, d, h1, h2, hd, by rw [equalToCell_eq]⟩
    have hlen : i.params.length = 3 := by
      obtain ⟨rfl, -⟩ | ⟨rfl, -⟩ | ⟨rfl, -⟩ | ⟨rfl, -⟩ := hop <;> rfl
    exact ⟨_, hc, rfl, by rw [hlen, add_assoc]; rfl, rfl⟩
  · exact ⟨stored1 s d v rest, ⟨d, hd, .inr ⟨v, rest, hi, rfl⟩⟩, rfl, by rw [add_assoc]; rfl, rfl⟩

/-- Settles O46: the store completes, and the next fetch reads the cell it wrote. -/
theorem storedCellIsExecutedNext : Obligations.StoredCellIsExecutedNext := by
  intro s i dst d v hwf hrun hfetch hd hv
  obtain ⟨t, hc, hst, hpc, hmem⟩ := completes_of_storesValue hd hv
  have hstep : step s = .next t := step_eq_next.mpr (.inr ⟨hrun, .inr ⟨i, hfetch, exec_eq_next.mpr (.inl hc)⟩⟩)
  have ht : t.status = .running := hst.trans hrun
  have hget : t.mem.get d.toNat = v := by rw [hmem, Memory.get_set_self hwf]
  refine ⟨t, hstep, ht, hpc, hget, ?_, ?_⟩
  · rintro rfl
    have hn : 0 ≤ t.pc.toInt := nonneg_of_wa hd
    subst hget
    refine ⟨fun e => step_of_decode_error ht hn, fun o f ho => step_of_fetchRaws_error ht hn ho,
      fun o raws ho => step_of_fetchRaws_ok ht hn ho, fun hstop => ?_⟩
    rw [run_succ hstep, run_succ (step_of_isStopWord ht hn hstop), run_zero]
  · rintro j k p hj hp rfl
    rw [fetch_param_raw hj hp, hget]

end Sys2Proof.Machine

/-! SUPPORT. The decoder read digit by digit and the decoder as the inverse of the encoder: the statements of
`30_encoding.md`. -/

namespace Sys2Proof

open Machine (toInt_of_nonneg)

/-! ## The canonical value of an opcode -/

/-- `30_encoding.md` R62: the canonical opcode word of an operation and its modes, as a number. -/
def Opcode.value (o : Opcode) : Nat :=
  o.op.code + 100 * Nat.ofDigits 10 (o.modes.map Mode.digit)

theorem Op.code_lt (op : Op) : op.code < 100 := by
  cases op <;> decide

/-- The first `n` decimal digits of a number are `ds` exactly when they are the number's remainder modulo `10 ^ n`. -/
theorem map_digit_range_eq_iff {md n : Nat} {ds : List Nat} (hds : ∀ d ∈ ds, d < 10) :
    (List.range n).map (fun k => md / 10 ^ k % 10) = ds ↔ ds.length = n ∧ md % 10 ^ n = Nat.ofDigits 10 ds := by
  induction n generalizing md ds with
  | zero => cases ds <;> simp [Nat.mod_one]
  | succ n ih =>
    cases ds with
    | nil => simp
    | cons d ds =>
      obtain ⟨hd, hds⟩ := List.forall_mem_cons.mp hds
      have htail : (List.range n).map (fun k => md / 10 ^ (k + 1) % 10) = ds ↔
          ds.length = n ∧ md / 10 % 10 ^ n = Nat.ofDigits 10 ds := by
        simp only [← ih hds, Nat.div_div_eq_div_mul, Nat.pow_succ']
      have hmod : md % 10 ^ (n + 1) = md % 10 + 10 * (md / 10 % 10 ^ n) := by
        rw [Nat.pow_succ', Nat.mod_mul]
      simp only [List.range_succ_eq_map, List.map_cons, List.map_map, Function.comp_def, List.cons.injEq, Nat.pow_zero,
        Nat.div_one, Nat.succ_eq_add_one, htail, List.length_cons, Nat.ofDigits_cons, hmod]
      omega

theorem map_modeDigit_paramIndices {md : Nat} {op : Op} {ms : List Mode} :
    op.paramIndices.map (modeDigit md) = ms.map Mode.digit ↔
      ms.length = op.nparams ∧ md % 10 ^ op.nparams = Nat.ofDigits 10 (ms.map Mode.digit) := by
  have hlt : ∀ d ∈ ms.map Mode.digit, d < 10 := by
    simp only [List.forall_mem_map]
    exact fun m _ => m.digit_lt.trans (by decide)
  rw [← List.length_map (f := Mode.digit), ← map_digit_range_eq_iff hlt, Op.paramIndices, List.map_map]
  rfl

/-- R55, R64: an opcode word decodes to the operation and modes of its lowest `2 + n` digits, whatever stands above. -/
theorem decodeOpcode_eq_ok_iff_mod {w : Word} {o : Opcode} :
    decodeOpcode w = .ok o ↔ 0 ≤ w.toInt ∧ o.modes.length = o.op.nparams ∧
      w.toNat % 10 ^ (2 + o.op.nparams) = o.value ∧ o.writesImmediate = false := by
  have hmod : w.toNat % 10 ^ (2 + o.op.nparams) = w.toNat % 100 + 100 * (w.toNat / 100 % 10 ^ o.op.nparams) := by
    rw [Nat.pow_add, Nat.mod_mul]
  have hc := o.op.code_lt
  simp only [decodeOpcode_eq_ok, map_modeDigit_paramIndices, hmod, Opcode.value]
  constructor
  · rintro ⟨hn, hcode, ⟨hlen, hdigits⟩, hwrite⟩
    exact ⟨hn, hlen, by rw [hcode, hdigits], hwrite⟩
  · rintro ⟨hn, hlen, hvalue, hwrite⟩
    exact ⟨hn, by omega, ⟨hlen, by omega⟩, hwrite⟩

/-! ## The opcode of an instruction -/

/-- The operation an instruction is built with. -/
def Instr.op : Instr → Op
  | .add _ _ _ => .add
  | .multiply _ _ _ => .multiply
  | .input _ => .input
  | .output _ => .output
  | .jumpIfTrue _ _ => .jumpIfTrue
  | .jumpIfFalse _ _ => .jumpIfFalse
  | .lessThan _ _ _ => .lessThan
  | .equalTo _ _ _ => .equalTo
  | .adjustRelativeBase _ => .adjustRelativeBase
  | .stop => .stop

/-- What the decoder of an opcode word has to answer for an instruction: its operation and the modes of its parameters. -/
def Instr.opcode (i : Instr) : Opcode :=
  ⟨i.op, i.params.map Param.mode⟩

theorem Instr.op_code (i : Instr) : i.op.code = i.code := by
  cases i <;> rfl

theorem Instr.op_nparams (i : Instr) : i.op.nparams = i.params.length := by
  cases i <;> rfl

theorem Instr.writesImmediate_opcode (i : Instr) : i.opcode.writesImmediate = !i.wellFormed := by
  cases i <;> simp [Instr.opcode, Instr.op, Instr.params, Opcode.writesImmediate, Op.writeParam, Opcode.mode,
    Instr.wellFormed, Param.writable, bne]

/-- R50, R73: an instruction is its opcode paired with its raw values. -/
theorem Instr.build_opcode (i : Instr) : i.opcode.build (i.params.map Param.raw) = i := by
  cases i <;> rfl

theorem Opcode.build_op (o : Opcode) (raws : List Word) : (o.build raws).op = o.op := by
  cases h : o.op <;> simp [Opcode.build, h, Instr.op]

theorem map_getD_paramIndices {α : Type} {op : Op} {xs : List α} (h : xs.length = op.nparams) (d : α) :
    op.paramIndices.map (fun i => xs.getD (i - 1) d) = xs := by
  apply List.ext_getElem
  · simp [Op.paramIndices_length, h]
  · intro k _ hk
    simp [Op.paramIndices, hk]

theorem Opcode.opcode_build {o : Opcode} (h : o.modes.length = o.op.nparams) (raws : List Word) :
    (o.build raws).opcode = o := by
  have hmodes : (o.build raws).params.map Param.mode = o.modes := by
    rw [Opcode.build_params, List.map_map]
    exact map_getD_paramIndices h .position
  rw [Instr.opcode, hmodes, Opcode.build_op]

theorem Opcode.raws_build {o : Opcode} {raws : List Word} (h : raws.length = o.op.nparams) :
    (o.build raws).params.map Param.raw = raws := by
  rw [Opcode.build_params, List.map_map]
  exact map_getD_paramIndices h 0

/-- R50, R58: decoding reads an instruction's opcode from the first cell and its raw values from the cells after it. -/
theorem decode_eq_ok_iff_opcode {w : Word} {cells rest : List Word} {i : Instr} :
    decode (w :: cells) = .ok (i, rest) ↔ decodeOpcode w = .ok i.opcode ∧ cells = i.params.map Param.raw ++ rest := by
  rw [decode_eq_ok]
  constructor
  · rintro ⟨o, ho, hlen, rfl, rfl⟩
    rw [Opcode.opcode_build (decodeOpcode_modes_length ho), Opcode.raws_build (by simpa using hlen), List.take_append_drop]
    exact ⟨ho, rfl⟩
  · rintro ⟨ho, rfl⟩
    have hn : i.opcode.op.nparams = (i.params.map Param.raw).length := by simp [Instr.opcode, Instr.op_nparams]
    exact ⟨i.opcode, ho, by simp [hn], by rw [hn, List.take_left, Instr.build_opcode], by rw [hn, List.drop_left]⟩

/-! ## Decoding against the canonical word -/

theorem modeDigits_eq_ofDigits (ps : List Param) :
    modeDigits ps = Nat.ofDigits 10 ((ps.map Param.mode).map Mode.digit) := by
  induction ps with
  | nil => rfl
  | cons p ps ih => simp [modeDigits, ih, Nat.ofDigits_cons]

theorem Instr.params_length_le (i : Instr) : i.params.length ≤ 3 := by
  cases i <;> simp [Instr.params]

theorem Instr.code_lt (i : Instr) : i.code < 100 :=
  i.op_code ▸ i.op.code_lt

theorem Instr.encodedCells (i : Instr) : Laws.EncodedCells.Statement i :=
  Laws.EncodedCells.of_code i.code_lt i.params_length_le

theorem Instr.opcodeWord_nonneg (i : Instr) : 0 ≤ i.opcodeWord.toInt :=
  let ⟨_, _, hn, _, _⟩ := i.encodedCells
  hn

theorem Instr.opcodeWord_lt (i : Instr) : i.opcodeWord.toNat < 10 ^ (2 + i.params.length) :=
  let ⟨_, _, _, _, hlt⟩ := i.encodedCells
  hlt

theorem Instr.opcode_value (i : Instr) : i.opcode.value = i.opcodeWord.toNat := by
  have hd := Laws.EncodedCells.modeDigits_lt i.params
  have hp : 10 ^ i.params.length ≤ 10 ^ 3 := Nat.pow_le_pow_right (by decide) i.params_length_le
  have hc := i.code_lt
  rw [Instr.opcodeWord, BitVec.toNat_ofNat, Nat.mod_eq_of_lt (by omega), modeDigits_eq_ofDigits, ← Instr.op_code]
  rfl

/-- R64: what decodes to an instruction is its raw values behind any word that ends in the digits of its canonical word. -/
theorem decode_eq_ok_iff {w : Word} {cells rest : List Word} {i : Instr} :
    decode (w :: cells) = .ok (i, rest) ↔ i.wellFormed = true ∧ 0 ≤ w.toInt ∧
      w.toNat % 10 ^ (2 + i.params.length) = i.opcodeWord.toNat ∧ cells = i.params.map Param.raw ++ rest := by
  have hn : i.opcode.op.nparams = i.params.length := i.op_nparams
  have hlen : i.opcode.modes.length = i.params.length := List.length_map _
  rw [decode_eq_ok_iff_opcode, decodeOpcode_eq_ok_iff_mod, Instr.opcode_value, Instr.writesImmediate_opcode,
    Bool.not_eq_false', hn]
  constructor
  · rintro ⟨⟨h0, -, hmod, hwf⟩, hcells⟩
    exact ⟨hwf, h0, hmod, hcells⟩
  · rintro ⟨hwf, h0, hmod, hcells⟩
    exact ⟨⟨h0, hlen, hmod, hwf⟩, hcells⟩

theorem toNat_ofNat_small {m : Nat} (h : m < 2 ^ 63) : (BitVec.ofNat 64 m).toNat = m := by
  rw [BitVec.toNat_ofNat, Nat.mod_eq_of_lt (by omega)]

theorem toInt_ofNat_nonneg {m : Nat} (h : m < 2 ^ 63) : 0 ≤ (BitVec.ofNat 64 m).toInt := by
  rw [Machine.toInt_ofNat_small h]
  exact Int.natCast_nonneg m

/-- Settles O12: the three parts are `decode_eq_ok_iff` at the canonical word, at that word with excess digits, and at
any word. -/
theorem decodeAndEncodeAreARetraction : Obligations.DecodeAndEncodeAreARetraction := by
  refine ⟨fun i rest hwf => ?_, fun i k rest hwf hk => ?_, fun w cells rest i h => ?_⟩
  · exact decode_eq_ok_iff.mpr ⟨hwf, i.opcodeWord_nonneg, Nat.mod_eq_of_lt i.opcodeWord_lt, rfl⟩
  · refine decode_eq_ok_iff.mpr ⟨hwf, toInt_ofNat_nonneg hk, ?_, rfl⟩
    rw [toNat_ofNat_small hk, Nat.add_mul_mod_self_right, Nat.mod_eq_of_lt i.opcodeWord_lt]
  · obtain ⟨-, -, hmod, rfl⟩ := decode_eq_ok_iff.mp h
    have hcanon : encode i ++ rest = w :: (i.params.map Param.raw ++ rest) ↔ i.opcodeWord = w := by
      simp [encode]
    rw [hcanon, ← BitVec.toNat_inj, ← hmod]
    exact Nat.mod_eq_iff_lt (by positivity)

/-- Settles O11: excess digits do not change the remainder the decoder goes by. -/
theorem excessDigitsHaveNoEffect : Obligations.ExcessDigitsHaveNoEffect := by
  refine ⟨fun w o k h hk => ?_, by decide, by decide, by decide⟩
  obtain ⟨-, hlen, hmod, hwrite⟩ := decodeOpcode_eq_ok_iff_mod.mp h
  refine decodeOpcode_eq_ok_iff_mod.mpr ⟨toInt_ofNat_nonneg hk, hlen, ?_, hwrite⟩
  rw [toNat_ofNat_small hk, Nat.add_mul_mod_self_right, hmod]

/-- Settles O14, by running the decoder on the words. -/
theorem wordsOfTheSpecDecode : Obligations.WordsOfTheSpecDecode := by
  unfold Obligations.WordsOfTheSpecDecode
  decide

/-! ## The fields of an opcode word over the integers -/

theorem toInt_emod_hundred {w : Word} (h : 0 ≤ w.toInt) : w.toInt % 100 = (w.toNat % 100 : Nat) := by
  rw [toInt_of_nonneg h, Int.natCast_emod]
  rfl

theorem Rule.nparams_code (op : Op) : Rule.nparams op.code = op.nparams := by
  cases op <;> rfl

theorem Rule.isWrite_code {op : Op} {k : Nat} : Rule.isWrite op.code k ↔ op.writeParam = some k := by
  cases op <;> simp [Rule.isWrite, Op.code, Op.writeParam, eq_comm]

/-- `30_encoding.md` R57: the operations in the order of the instruction table. -/
def Op.table : List Op :=
  [.add, .multiply, .input, .output, .jumpIfTrue, .jumpIfFalse, .lessThan, .equalTo, .adjustRelativeBase, .stop]

theorem Op.mem_table (op : Op) : op ∈ Op.table := by
  cases op <;> decide

theorem Rule.inTable_iff {n : Nat} : Rule.inTable n ↔ ∃ op : Op, n = op.code := by
  change (n : Int) ∈ Op.table.map (fun op => (op.code : Int)) ↔ _
  simp [Op.mem_table, eq_comm]

theorem Rule.digit_toInt {w : Word} (h : 0 ≤ w.toInt) (k : Nat) :
    Rule.digit w.toInt k = (modeDigit (w.toNat / 100) k : Nat) := by
  rw [toInt_of_nonneg h, Rule.digit, modeDigit]
  norm_cast

theorem Rule.params_of_code {w : Word} {op : Op} (h : 0 ≤ w.toInt) (hc : w.toNat % 100 = op.code) :
    Rule.params w.toInt = op.paramIndices := by
  rw [Rule.params, Rule.opOf, toInt_emod_hundred h, hc, Rule.nparams_code]
  cases op <;> rfl

/-- Settles O13, from the two readings of a decoded list of cells. -/
theorem decodedInstructionsAreWellFormed : Obligations.DecodedInstructionsAreWellFormed := by
  intro w cells rest i h
  obtain ⟨hwf, hn, -, hcells⟩ := decode_eq_ok_iff.mp h
  have hc : w.toNat % 100 = i.code := by
    rw [← i.op_code]
    exact (decodeOpcode_eq_ok.mp (decode_eq_ok_iff_opcode.mp h).1).2.1
  rw [toInt_emod_hundred hn, hc, ← i.op_code, Rule.nparams_code, i.op_nparams]
  exact ⟨hwf, rfl, rfl, hcells⟩

/-! ## What the decoder answers, by the digits -/

theorem decodeOpcode_of_neg {w : Word} (h : w.toInt < 0) : decodeOpcode w = .error (.invalidOpcode w) := by
  simp [decodeOpcode, h]

theorem decodeOpcode_of_not_code {w : Word} (h : ∀ op : Op, w.toNat % 100 ≠ op.code) :
    decodeOpcode w = .error (.invalidOpcode w) := by
  simp [decodeOpcode, Op.ofCode_eq_none.mpr h]

section LegalCode

variable {w : Word} {op : Op} (hn : 0 ≤ w.toInt) (hc : w.toNat % 100 = op.code)
include hn hc

theorem decodeOpcode_of_illegal_digit (h : ∃ k ∈ op.paramIndices, 3 ≤ modeDigit (w.toNat / 100) k) :
    decodeOpcode w = .error (.invalidParameterMode w) := by
  simp [decodeOpcode, Int.not_lt.mpr hn, Op.ofCode_eq_some.mpr hc, modesOf_eq_none.mpr h]

theorem decodeOpcode_of_modes {ms : List Mode} (h : modesOf (w.toNat / 100) op.paramIndices = some ms) :
    decodeOpcode w = if Opcode.writesImmediate ⟨op, ms⟩ then .error (.invalidWriteTarget w) else .ok ⟨op, ms⟩ := by
  simp [decodeOpcode, Int.not_lt.mpr hn, Op.ofCode_eq_some.mpr hc, h]

end LegalCode

theorem exists_modesOf {md : Nat} {is : List Nat} (h : ∀ k ∈ is, modeDigit md k < 3) : ∃ ms, modesOf md is = some ms := by
  refine Option.ne_none_iff_exists'.mp fun hnone => ?_
  obtain ⟨k, hk, hd⟩ := modesOf_eq_none.mp hnone
  exact absurd (h k hk) (Nat.not_lt.mpr hd)

/-- R53, R54: the mode of each parameter is the one its digit names. -/
theorem digit_mode_of_modesOf {md : Nat} {op : Op} {ms : List Mode} (h : modesOf md op.paramIndices = some ms)
    {k : Nat} (hk : k ∈ op.paramIndices) : ((⟨op, ms⟩ : Opcode).mode k).digit = modeDigit md k := by
  have hmap := modesOf_eq_some.mp h
  have hlen : ms.length = op.nparams := (map_modeDigit_paramIndices.mp hmap).1
  obtain ⟨j, hj, rfl⟩ : ∃ j < op.nparams, j + 1 = k := by simpa [Op.paramIndices] using hk
  have := congrArg (·[j]?) hmap
  simpa [Op.paramIndices, hj, hlen, Opcode.mode] using this.symm

theorem Mode.digit_eq_one {m : Mode} : m.digit = 1 ↔ m = .immediate := by
  cases m <;> decide

theorem Mode.eq_of_digit (m : Mode) :
    m = if m.digit = 0 then .position else if m.digit = 1 then .immediate else .relative := by
  cases m <;> rfl

theorem Op.mem_paramIndices_of_writeParam {op : Op} {k : Nat} (h : op.writeParam = some k) : k ∈ op.paramIndices := by
  cases op <;> cases h <;> decide

theorem writesImmediate_iff_digit {md : Nat} {op : Op} {ms : List Mode} (h : modesOf md op.paramIndices = some ms) :
    (⟨op, ms⟩ : Opcode).writesImmediate = true ↔ ∃ k ∈ op.paramIndices, op.writeParam = some k ∧ modeDigit md k = 1 := by
  cases hw : op.writeParam with
  | none => simp [Opcode.writesImmediate, hw]
  | some k =>
    have hk := Op.mem_paramIndices_of_writeParam hw
    simp [Opcode.writesImmediate, hw, hk, ← digit_mode_of_modesOf h hk, Mode.digit_eq_one]

/-- Settles O9: one clause for each check of `decodeOpcode`, in its order. -/
theorem illegalOpcodeWordsAreRejectedByName : Obligations.IllegalOpcodeWordsAreRejectedByName := by
  intro w
  refine ⟨decodeOpcode_of_neg, fun hn hc => ?_, fun hn hc => ?_, fun hn hc => ?_⟩ <;>
    rw [toInt_emod_hundred hn, Rule.inTable_iff] at hc
  · exact decodeOpcode_of_not_code (not_exists.mp hc)
  · obtain ⟨op, hc⟩ := hc
    simp only [Rule.params_of_code hn hc, Rule.digit_toInt hn]
    rintro ⟨k, hk, hd⟩
    exact decodeOpcode_of_illegal_digit hn hc ⟨k, hk, by omega⟩
  · obtain ⟨op, hc⟩ := hc
    simp only [Rule.params_of_code hn hc, Rule.digit_toInt hn, toInt_emod_hundred hn, hc, Rule.isWrite_code]
    rintro hd ⟨k, hk, hw, h1⟩
    obtain ⟨ms, hms⟩ := exists_modesOf fun k hk => Int.ofNat_lt.mp (hd k hk)
    rw [decodeOpcode_of_modes hn hc hms, if_pos ((writesImmediate_iff_digit hms).mpr ⟨k, hk, hw, by omega⟩)]

/-- Settles O10: with every check passed, the modes are those of the digits. -/
theorem legalOpcodeWordsDecodeByTheirDigits : Obligations.LegalOpcodeWordsDecodeByTheirDigits := by
  intro w hn hc
  obtain ⟨op, hc⟩ := Rule.inTable_iff.mp (toInt_emod_hundred hn ▸ hc)
  simp only [Rule.params_of_code hn hc, Rule.digit_toInt hn, toInt_emod_hundred hn, hc, Rule.isWrite_code,
    Rule.nparams_code]
  intro hd hw
  obtain ⟨ms, hms⟩ := exists_modesOf fun k hk => Int.ofNat_lt.mp (hd k hk)
  have hwrite : ¬ (⟨op, ms⟩ : Opcode).writesImmediate = true := by
    rw [writesImmediate_iff_digit hms]
    rintro ⟨k, hk, hk', h1⟩
    exact hw k hk hk' (by omega)
  refine ⟨⟨op, ms⟩, by rw [decodeOpcode_of_modes hn hc hms, if_neg hwrite], Op.ofCode_eq_some.mpr rfl,
    (map_modeDigit_paramIndices.mp (modesOf_eq_some.mp hms)).1, fun k hk => ?_⟩
  rw [← digit_mode_of_modesOf hms hk]
  exact_mod_cast Mode.eq_of_digit _

end Sys2Proof

namespace Sys2Proof.Machine

/-! ## The mode of a write parameter -/

theorem exists_writeParam_of_not_wellFormed {i : Instr} (h : i.wellFormed = false) :
    ∃ dst, writeParam? i = some dst ∧ dst.mode = .immediate := by
  cases i <;> simp_all [Instr.wellFormed, writeParam?, Param.writable]

/-- Stage 4 of `40_step_and_operands.md` R76 comes before stages 5 and 6. -/
theorem exec_of_immediate_writeParam {i : Instr} {dst : Param} (hi : writeParam? i = some dst)
    (hm : dst.mode = .immediate) (s : State) : exec i s = raise (.invalidWriteTarget (currentOpcodeWord s)) s := by
  have hthree {f : Word → Word → Word} {a b : Param} :
      format3 f a b dst s = .error (.invalidWriteTarget (currentOpcodeWord s)) :=
    format3_eq_error.mpr (.inl ⟨hm, rfl⟩)
  cases i with
  | add | multiply | lessThan | equalTo =>
    cases hi
    exact congrArg (settle s) hthree
  | input =>
    cases hi
    exact congrArg (settle s) (format1w_eq_error.mpr (wa_eq_error.mpr (.inl ⟨hm, rfl⟩)))
  | output | jumpIfTrue | jumpIfFalse | adjustRelativeBase | stop => cases hi

/-- Settles O31: an ill-formed instruction has an Immediate write parameter. -/
theorem immediateWriteTargetFaults : Obligations.ImmediateWriteTargetFaults := by
  intro i s h
  obtain ⟨dst, hi, hm⟩ := exists_writeParam_of_not_wellFormed h
  exact exec_of_immediate_writeParam hi hm s

end Sys2Proof.Machine

/-! SUPPORT. The operands, the step against the rule's step, and runs that receive the same inputs: the statements of
`40_step_and_operands.md`. -/

namespace Sys2Proof.Machine

/-! ## The adders over the integers -/

/-- `40_step_and_operands.md` R77: the machine's narrowing is the rule's. -/
theorem wrap64_toInt_eq_wrap (v : Int) : (wrap64 v).toInt = Rule.wrap v := by
  rw [wrap64_toInt, Int.bmod_def, Rule.wrap]
  split <;> omega

theorem add64_toInt (x y : Word) : (add64 x y).toInt = Rule.wrap (x.toInt + y.toInt) :=
  wrap64_toInt_eq_wrap _

theorem mul64_toInt (x y : Word) : (mul64 x y).toInt = Rule.wrap (x.toInt * y.toInt) :=
  wrap64_toInt_eq_wrap _

theorem paramAddress_toInt (s : State) {k : Nat} (hk : k < 2 ^ 63) :
    (paramAddress s k).toInt = Rule.wrap (s.pc.toInt + k) := by
  rw [paramAddress, add64_toInt, toInt_ofNat_small hk]

theorem advance_pc_toInt (s : State) {width : Nat} (hw : width < 2 ^ 63) :
    (advance width s).pc.toInt = Rule.wrap (s.pc.toInt + width) := by
  rw [advance_pc, add64_toInt, toInt_ofNat_small hw]

/-! ## What `exec`, `step` and `run` answer -/

theorem exec_of_completes {i : Instr} {s t : State} (h : completes i s t) : exec i s = .next t :=
  exec_eq_next.mpr (.inl h)

theorem exec_of_faults {i : Instr} {s : State} {f : Fault} (h : faults i s f) : exec i s = raise f s :=
  exec_eq_next.mpr (.inr ⟨f, h, rfl⟩)

theorem step_of_not_running {s : State} (h : s.status ≠ .running) : step s = .next s :=
  step_eq_next.mpr (.inl ⟨h, rfl⟩)

/-- Where a call of `step` answers the same state, so does any number of them. -/
theorem run_of_step_self {s : State} (h : step s = .next s) (n : Nat) : Sys2Proof.core.run n s = .next s := by
  induction n with
  | zero => rfl
  | succ n ih => rw [run_succ h, ih]

/-! ## The addresses of operands -/

theorem effectiveAddress_of_position {p : Param} (h : p.mode = .position) (s : State) : effectiveAddress p s = p.raw := by
  simp only [effectiveAddress, h]

theorem effectiveAddress_of_relative {p : Param} (h : p.mode = .relative) (s : State) :
    effectiveAddress p s = wrap64 (s.rb.toInt + p.raw.toInt) := by
  simp only [effectiveAddress, h, add64]

section NamedAddress

variable {p : Param} {s : State} {a : Word} (hm : p.mode ≠ .immediate) (ha : effectiveAddress p s = a)
include hm ha

theorem rd_of_effectiveAddress : (0 ≤ a.toInt → rd p s = .ok (s.mem.get a.toNat)) ∧
    (a.toInt < 0 → rd p s = .error (.negativeAddress a)) := by
  subst ha
  exact ⟨fun h => rd_eq_ok.mpr (.inr ⟨hm, h, rfl⟩), fun h => rd_eq_error.mpr ⟨hm, h, rfl⟩⟩

theorem wa_of_effectiveAddress : (0 ≤ a.toInt → wa p s = .ok a) ∧
    (a.toInt < 0 → wa p s = .error (.negativeAddress a)) := by
  subst ha
  exact ⟨fun h => wa_eq_ok.mpr ⟨hm, h, rfl⟩, fun h => wa_eq_error.mpr (.inr ⟨hm, h, rfl⟩)⟩

end NamedAddress

/-- Settles O15: a parameter that is not Immediate reads the cell at its effective address. -/
theorem readParameterValue : Obligations.ReadParameterValue := by
  intro p s
  refine ⟨fun hm => rd_eq_ok.mpr (.inl ⟨hm, rfl⟩), fun hm => ?_, fun hm => ?_⟩
  · exact rd_of_effectiveAddress (by simp [hm]) (effectiveAddress_of_position hm s)
  · exact rd_of_effectiveAddress (by simp [hm]) (effectiveAddress_of_relative hm s)

/-- R75: the cell a write parameter names is not read. -/
theorem wa_withMem {p : Param} (hm : p.mode ≠ .immediate) (s : State) (m : Memory) :
    wa p { s with mem := m } = wa p s := by
  cases h : p.mode with
  | immediate => exact absurd h hm
  | position | relative => simp [wa, effectiveAddress, h]

/-- Settles O16: a write parameter that is not Immediate names its effective address, once that is legal. -/
theorem writeParameterAddress : Obligations.WriteParameterAddress := by
  intro p s
  refine ⟨fun hm => wa_eq_error.mpr (.inl ⟨hm, rfl⟩), fun hm => ?_, fun hm => ?_, fun hm m => wa_withMem hm s m,
    fun a v h => ⟨_, memWrite_of_nonneg (nonneg_of_wa h) v s⟩⟩
  · exact wa_of_effectiveAddress (by simp [hm]) (effectiveAddress_of_position hm s)
  · exact wa_of_effectiveAddress (by simp [hm]) (effectiveAddress_of_relative hm s)

/-- Past the last address the adder of the parameter addresses wraps to a negative one. -/
theorem wrap_add_neg_iff {x : Int} {k : Nat} (h0 : 0 ≤ x) (hx : x < 2 ^ 63) (hk : k < 2 ^ 63) :
    Rule.wrap (x + k) < 0 ↔ 2 ^ 63 - 1 - (k : Int) < x := by
  rw [Rule.wrap]
  omega

/-- Settles O17: each adder is `wrap64` of the exact sum, and `wrap64` is the rule's wrap. -/
theorem addersWrapModulo64Bits : Obligations.AddersWrapModulo64Bits := by
  refine ⟨fun s k hk => paramAddress_toInt s (by omega), fun s width hw => advance_pc_toInt s (by omega),
    fun s p hm => ?_, fun a s t v hv h => ?_, fun s k hk hpc => ?_, fun s raw hrb hraw => ?_⟩
  · rw [effectiveAddress_of_relative hm, wrap64_toInt_eq_wrap]
  · rw [exec_of_completes (i := .adjustRelativeBase a) ⟨v, hv, rfl⟩] at h
    cases h
    exact wrap64_toInt_eq_wrap _
  · rw [paramAddress_toInt s (by omega)]
    exact wrap_add_neg_iff hpc (toInt_lt s.pc) (by omega)
  · subst hraw
    have ha : effectiveAddress ⟨.relative, -1⟩ s = 9223372036854775807 := by
      rw [effectiveAddress_of_relative rfl, hrb]
      rfl
    exact (wa_of_effectiveAddress (by simp) ha).1 (by decide)

/-! ## The order of the operands -/

/-- Settles O19: the fault is that of the first parameter that does not resolve (`format3_eq_error`, `faults`). -/
theorem everyParameterIsResolvedFirst : Obligations.EveryParameterIsResolvedFirst := by
  refine ⟨?_, ?_, ?_, fun dst s f h => exec_of_faults (i := .input dst) h, rfl⟩
  · intro mk hmk a b dst s hm
    obtain ⟨g, hg⟩ : ∃ g, ∀ f, format3 g a b dst s = .error f → faults (mk a b dst) s f := by
      simp only [List.mem_cons, List.not_mem_nil, or_false] at hmk
      obtain rfl | rfl | rfl | rfl := hmk <;> exact ⟨_, fun f h => h⟩
    refine ⟨fun f h1 => ?_, fun f v1 h1 h2 => ?_, fun f v1 v2 h1 h2 hd => ?_⟩ <;>
      refine exec_of_faults (hg f (format3_eq_error.mpr (.inr ⟨hm, ?_⟩)))
    · exact .inl h1
    · exact .inr ⟨⟨v1, h1⟩, .inl h2⟩
    · exact .inr ⟨⟨v1, h1⟩, .inr ⟨⟨v2, h2⟩, hd⟩⟩
  · intro mk hmk c g s
    have hfaults (f : Fault) (h : rd c s = .error f ∨ (∃ v, rd c s = .ok v) ∧ rd g s = .error f) :
        faults (mk c g) s f := by
      simp only [List.mem_cons, List.not_mem_nil, or_false] at hmk
      obtain rfl | rfl := hmk <;> exact h
    exact ⟨fun f h1 => exec_of_faults (hfaults f (.inl h1)),
      fun f v h1 h2 => exec_of_faults (hfaults f (.inr ⟨⟨v, h1⟩, h2⟩))⟩
  · intro mk hmk a s f h
    simp only [List.mem_cons, List.not_mem_nil, or_false] at hmk
    obtain rfl | rfl := hmk
    · exact exec_of_faults (i := .output a) h
    · exact exec_of_faults (i := .adjustRelativeBase a) h

/-! ## What a step is -/

/-- Settles O35: where `step` performs no step it answers the same state, and it always answers some next state. -/
theorem noStepUnlessRunning : Obligations.NoStepUnlessRunning := by
  refine ⟨fun s n hs => run_of_step_self (step_of_not_running hs) n, fun s _ => step_next s, fun s _ hw => ?_⟩
  exact step_of_not_performs (by simp [State.performs, hw])

theorem Fault.code_range (f : Fault) : 1 ≤ f.code.toNat ∧ f.code.toNat ≤ 4 := by
  cases f <;> simp [Fault.code]

/-- Settles O40, by the four ways a step answers: one that completes leaves STATUS as it is or halts. -/
theorem faultingStepHasNoEffect : Obligations.FaultingStepHasNoEffect := by
  intro s t hs h ht
  obtain ⟨hs', -⟩ | ⟨-, f, -, rfl⟩ | ⟨-, i, -, hc⟩ | ⟨-, i, f, -, -, rfl⟩ := step_cases h
  · exact absurd hs hs'
  · exact ⟨rfl, f.code_range⟩
  · obtain ⟨-, rfl⟩ | ⟨hst, -⟩ := (effect_of_completes hc).status_cases
    · simp at ht
    · simp [hst, hs] at ht
  · exact ⟨rfl, f.code_range⟩

theorem mem_paramIndices {op : Op} {k : Nat} : k ∈ op.paramIndices ↔ ∃ j < op.nparams, j + 1 = k := by
  simp [Op.paramIndices]

/-- R72: no wrap below the end of the address space. -/
theorem paramAddress_toNat {s : State} {k : Nat} (hpc : 0 ≤ s.pc.toInt) (hk : s.pc.toInt + k < 2 ^ 63) :
    0 ≤ (paramAddress s k).toInt ∧ (paramAddress s k).toNat = s.pc.toNat + k := by
  have hadd : (paramAddress s k).toInt = s.pc.toInt + k := by
    rw [paramAddress_toInt s (by omega), Rule.wrap]
    omega
  have hpc' := toInt_of_nonneg hpc
  have hn : 0 ≤ (paramAddress s k).toInt := by omega
  have := toInt_of_nonneg hn
  exact ⟨hn, by omega⟩

/-- Settles O34: the cells the fetch reads are those at `pc`. -/
theorem stepRunsTheDecodedInstruction : Obligations.StepRunsTheDecodedInstruction := by
  intro s i rest hs hpc hend hdecode
  rw [List.range_succ_eq_map, List.map_cons, decode_eq_ok] at hdecode
  obtain ⟨o, ho, hlen, rfl, -⟩ := hdecode
  rw [Opcode.build_params_length] at hend
  simp only [List.length_map, List.length_range] at hlen
  have haddr : ∀ k ∈ o.op.paramIndices, 0 ≤ (paramAddress s k).toInt ∧ (paramAddress s k).toNat = s.pc.toNat + k := by
    intro k hk
    obtain ⟨j, hj, rfl⟩ := mem_paramIndices.mp hk
    exact paramAddress_toNat hpc (by omega)
  refine step_of_fetch_ok hs (fetch_eq_ok.mpr ⟨hpc, o, ho, fun k hk => (haddr k hk).1, congrArg o.build ?_⟩)
  rw [List.map_congr_left fun k hk => congrArg s.mem.get (haddr k hk).2]
  simp [Op.paramIndices, List.take_range, hlen, ← List.map_take]

/-! ## The checks of a step

Stages 1 to 6 of `40_step_and_operands.md` R76 as one computation: the fetch, then the parameters in order. -/

/-- R78: every parameter of the instruction at `pc` is resolved, in order. A write parameter the decoder let through resolves
exactly when the cell it names can be read (`rd_of_wa_ok`, `rd_of_wa_error`). -/
def checks (s : State) : Except Fault (List Word) := do
  let i ← fetch s
  i.params.mapM (rd · s)

theorem rd_of_wa_ok {p : Param} {s : State} {d : Word} (h : wa p s = .ok d) : ∃ v, rd p s = .ok v := by
  obtain ⟨hm, hd, rfl⟩ := wa_eq_ok.mp h
  exact ⟨_, rd_eq_ok.mpr (.inr ⟨hm, hd, rfl⟩)⟩

theorem rd_of_wa_error {p : Param} {s : State} {f : Fault} (hp : p.writable = true) (h : wa p s = .error f) :
    rd p s = .error f := by
  obtain ⟨hm, -⟩ | h := wa_eq_error.mp h
  · exact absurd hm ((writable_iff p).mp hp)
  · exact rd_eq_error.mpr h

theorem mapM_rd_of_format3_error {g : Word → Word → Word} {a b dst : Param} {s : State} {f : Fault}
    (hp : dst.writable = true) (h : format3 g a b dst s = .error f) : [a, b, dst].mapM (rd · s) = .error f := by
  obtain ⟨hm, -⟩ | ⟨-, h1 | ⟨⟨v1, h1⟩, h2 | ⟨⟨v2, h2⟩, hd⟩⟩⟩ := format3_eq_error.mp h
  · exact absurd hm ((writable_iff dst).mp hp)
  · simp [List.mapM_cons, h1]
  · simp [List.mapM_cons, h1, h2]
  · simp [List.mapM_cons, h1, h2, rd_of_wa_error hp hd]

theorem checks_of_fetch_error {s : State} {f : Fault} (h : fetch s = .error f) : checks s = .error f := by
  simp [checks, h]

theorem checks_of_faults {s : State} {i : Instr} {f : Fault} (hi : fetch s = .ok i) (h : faults i s f) :
    checks s = .error f := by
  have hwf := fetch_wellFormed hi
  simp only [checks, hi, except_bind_ok]
  cases i with
  | add | multiply | lessThan | equalTo => exact mapM_rd_of_format3_error hwf h
  | input => simp [Instr.params, List.mapM_cons, rd_of_wa_error hwf h]
  | output a | adjustRelativeBase a =>
    have h : rd a s = .error f := h
    simp [Instr.params, List.mapM_cons, h]
  | jumpIfTrue | jumpIfFalse =>
    obtain h1 | ⟨⟨v1, h1⟩, h2⟩ := h
    · simp [Instr.params, List.mapM_cons, h1]
    · simp [Instr.params, List.mapM_cons, h1, h2]
  | stop => exact h.elim

theorem checks_of_completes {s t : State} {i : Instr} (hi : fetch s = .ok i) (h : completes i s t) :
    ∃ vs, checks s = .ok vs := by
  simp only [checks, hi, except_bind_ok]
  cases i with
  | add | multiply | lessThan | equalTo =>
    obtain ⟨v1, v2, d, h1, h2, hd, -⟩ := h
    obtain ⟨v3, h3⟩ := rd_of_wa_ok hd
    exact ⟨[v1, v2, v3], by simp [Instr.params, List.mapM_cons, h1, h2, h3]⟩
  | input =>
    obtain ⟨d, hd, -⟩ := h
    obtain ⟨v, hv⟩ := rd_of_wa_ok hd
    exact ⟨[v], by simp [Instr.params, List.mapM_cons, hv]⟩
  | output | adjustRelativeBase =>
    obtain ⟨v, hv, -⟩ := h
    exact ⟨[v], by simp [Instr.params, List.mapM_cons, hv]⟩
  | jumpIfTrue | jumpIfFalse =>
    obtain ⟨v1, v2, h1, h2, -⟩ := h
    exact ⟨[v1, v2], by simp [Instr.params, List.mapM_cons, h1, h2]⟩
  | stop => exact ⟨[], rfl⟩

/-! ## The checks over the integers -/

/-- `60_exceptions.md` R140: the code and the value that a fault records, over the integers. -/
def reported {α : Type} : Except Fault α → Option (Nat × Int)
  | .ok _ => none
  | .error f => some (f.code.toNat, f.info.toInt)

@[simp] theorem reported_ok {α : Type} (a : α) : reported (.ok a : Except Fault α) = none := rfl

@[simp] theorem reported_error {α : Type} (f : Fault) :
    reported (.error f : Except Fault α) = some (f.code.toNat, f.info.toInt) := rfl

/-- A stage of the step comes before the stages after it. -/
theorem or_eq_reported_bind {α β : Type} {x : Except Fault α} {k : α → Except Fault β}
    {first rest : Option (Nat × Int)} (hx : first = reported x) (hk : ∀ a, x = .ok a → rest = reported (k a)) :
    first.or rest = reported (x >>= k) := by
  cases x with
  | ok a => simp [hx, hk a rfl]
  | error f => simp [hx]

/-- `60_exceptions.md` R138: what the first negative address among those of a list of accesses reports. -/
def addressReport (as : List Int) : Option (Nat × Int) :=
  (as.find? (· < 0)).map (4, ·)

theorem addressReport_append (as bs : List Int) :
    addressReport (as ++ bs) = (addressReport as).or (addressReport bs) := by
  simp [addressReport, List.find?_append, Option.map_or]

/-- Accesses made in order report the first negative address among those they name. -/
theorem addressReport_filterMap {α β : Type} {l : List α} {address : α → Option Int} {f : α → Except Fault β}
    (h : ∀ x ∈ l, addressReport (address x).toList = reported (f x)) :
    addressReport (l.filterMap address) = reported (l.mapM f) := by
  induction l with
  | nil => rfl
  | cons x xs ih =>
    obtain ⟨hx, hxs⟩ := List.forall_mem_cons.mp h
    have hcons : (x :: xs).filterMap address = (address x).toList ++ xs.filterMap address := by
      cases hx : address x <;> simp [hx]
    rw [hcons, addressReport_append, List.mapM_cons]
    refine or_eq_reported_bind hx fun v _ => ?_
    rw [ih hxs]
    cases xs.mapM f <;> rfl

theorem reported_memRead (a : Word) (s : State) : reported (memRead a s) = addressReport [a.toInt] := by
  rcases lt_or_ge a.toInt 0 with h | h
  · simp [memRead_of_neg h, addressReport, h, Fault.code, Fault.info]
  · simp [memRead_of_nonneg h, addressReport, Int.not_lt.mpr h]

theorem fetchRaws_eq_mapM (s : State) (is : List Nat) :
    fetchRaws s is = is.mapM fun k => memRead (paramAddress s k) s := by
  induction is with
  | nil => rfl
  | cons k is ih => rw [fetchRaws, List.mapM_cons, ih]; rfl

/-- R74, R75: the address a parameter names, unless it is Immediate. -/
def namedAddress (p : Param) (s : State) : Option Word :=
  if p.mode = .immediate then none else some (effectiveAddress p s)

theorem reported_rd (p : Param) (s : State) :
    reported (rd p s) = addressReport ((namedAddress p s).map BitVec.toInt).toList := by
  cases hm : p.mode with
  | immediate => simp [rd, namedAddress, hm, addressReport]
  | position | relative => simp [rd, namedAddress, hm, reported_memRead]

/-! ## The machine's state over the integers -/

theorem view_mem {s : State} {a : Word} (h : 0 ≤ a.toInt) :
    (Rule.view s).mem a.toInt = (s.mem.get a.toNat).toInt := by
  simp [Rule.view, toInt_of_nonneg h]

theorem view_opcodeWord {s : State} (h : 0 ≤ s.pc.toInt) :
    (Rule.view s).mem (Rule.view s).pc = (s.mem.get s.pc.toNat).toInt :=
  view_mem h

theorem view_paramAddress (s : State) {k : Nat} (hk : k < 2 ^ 63) :
    Rule.paramAddress (Rule.view s) k = (paramAddress s k).toInt :=
  (paramAddress_toInt s hk).symm

theorem view_store {s : State} (hm : s.mem.wf = true) {d : Word} (hd : 0 ≤ d.toInt) (v : Word) :
    (Rule.view { s with mem := s.mem.set d.toNat v }).mem = Rule.store (Rule.view s).mem d.toInt v.toInt := by
  have hdn := toInt_of_nonneg hd
  funext a
  simp only [Rule.view, Rule.store, Memory.get_set hm]
  by_cases ha : 0 ≤ a
  · have : a.toNat = d.toNat ↔ a = d.toInt := by omega
    simp only [ha, if_true, this, apply_ite BitVec.toInt]
  · have : a ≠ d.toInt := by omega
    simp [ha, this]

/-! ## The first failed check -/

/-- Stages 2 to 4 of R76 on an opcode word: the code of the first check that fails. -/
def opcodeFault (w : Int) : Option Nat :=
  if w < 0 then some 1
  else if ¬ Rule.inTable (Rule.opOf w) then some 1
  else if ∃ k ∈ Rule.params w, 2 < Rule.digit w k then some 2
  else if ∃ k ∈ Rule.params w, Rule.isWrite (Rule.opOf w) k ∧ Rule.digit w k = 1 then some 3
  else none

theorem reported_decodeWord_of_error {w : Word} {e : DecodeError} (h : decodeOpcode w = .error e) :
    reported (decodeWord w) = some ((decodeFault w e).code.toNat, w.toInt) := by
  rw [decodeWord_eq_error.mpr ⟨e, h, rfl⟩, reported_error, decodeFault_info h]

/-- The rule's checks of an opcode word are the decoder's. -/
theorem opcodeFault_toInt (w : Word) : (opcodeFault w.toInt).map (·, w.toInt) = reported (decodeWord w) := by
  obtain ⟨hneg, htab, hdig, hwr⟩ := illegalOpcodeWordsAreRejectedByName w
  have hlegal := legalOpcodeWordsDecodeByTheirDigits w
  rw [opcodeFault]
  split_ifs with h1 h2 h3 h4
  · rw [reported_decodeWord_of_error (hneg h1)]
    rfl
  · rw [reported_decodeWord_of_error (hdig (by omega) h2 h3)]
    rfl
  · push Not at h3
    rw [reported_decodeWord_of_error (hwr (by omega) h2 (fun k hk => Int.lt_add_one_of_le (h3 k hk)) h4)]
    rfl
  · push Not at h3 h4
    obtain ⟨o, ho, -⟩ := hlegal (by omega) h2 (fun k hk => Int.lt_add_one_of_le (h3 k hk)) h4
    rw [decodeWord_eq_ok.mpr ho]
    rfl
  · rw [reported_decodeWord_of_error (htab (by omega) h2)]
    rfl

/-- `60_exceptions.md` R143: the address of the opcode word, the opcode word, the addresses of the parameters, the addresses
they name. -/
theorem firstFault_eq (r : Rule.RuleState) :
    Rule.firstFault r =
      (addressReport [r.pc]).or (((opcodeFault (r.mem r.pc)).map (·, r.mem r.pc)).or
        ((addressReport ((Rule.params (r.mem r.pc)).map (Rule.paramAddress r))).or
          (addressReport ((Rule.params (r.mem r.pc)).filterMap (Rule.operandAddress r (r.mem r.pc)))))) := by
  by_cases hpc : r.pc < 0
  · simp [Rule.firstFault, addressReport, hpc]
  -- The branches are those of `firstFault`, in which "not in the table" comes last.
  simp only [Rule.firstFault, opcodeFault, addressReport, List.find?_singleton, decide_eq_true_eq, hpc, if_false]
  split_ifs with hneg htable hdigit hwrite
  · rfl
  · rfl
  · rfl
  · cases ((Rule.params (r.mem r.pc)).map (Rule.paramAddress r)).find? (· < 0) with
    | some a => rfl
    | none => cases ((Rule.params (r.mem r.pc)).filterMap (Rule.operandAddress r (r.mem r.pc))).find? (· < 0) <;> rfl
  · rfl

/-! ## The parameters of the instruction at `pc` -/

theorem params_of_decodeOpcode {w : Word} {o : Opcode} (h : decodeOpcode w = .ok o) :
    Rule.params w.toInt = o.op.paramIndices := by
  obtain ⟨hn, hc, -, -⟩ := decodeOpcode_eq_ok.mp h
  exact Rule.params_of_code hn hc

theorem paramIndices_lt {op : Op} {k : Nat} (hk : k ∈ op.paramIndices) : k < 4 := by
  revert k
  cases op <;> decide

theorem build_params_eq_some {o : Opcode} {raws : List Word} {p : Param} {k : Nat} :
    (o.build raws).params[k]? = some p ↔ k < o.op.nparams ∧ o.param raws (k + 1) = p := by
  simp [Opcode.build_params, Op.paramIndices, List.getElem?_eq_some_iff]

section FetchedParam

variable {s : State} {i : Instr} {p : Param} {k : Nat} (hi : fetch s = .ok i) (hp : i.params[k]? = some p)
include hi hp

/-- `40_step_and_operands.md` R72: the rule reads the parameter's cell. -/
theorem view_raw : Rule.raw (Rule.view s) (k + 1) = p.raw.toInt := by
  rw [fetch_param_raw hi hp]
  obtain ⟨-, o, -, haddr, rfl⟩ := fetch_eq_ok.mp hi
  obtain ⟨hk, -⟩ := build_params_eq_some.mp hp
  have hk := mem_paramIndices.mpr ⟨k, hk, rfl⟩
  have := paramIndices_lt hk
  rw [Rule.raw, view_paramAddress s (by omega), view_mem (haddr _ hk)]

/-- `30_encoding.md` R53: the rule reads the parameter's mode in the opcode word. -/
theorem digit_opcodeWord : Rule.digit (s.mem.get s.pc.toNat).toInt (k + 1) = p.mode.digit := by
  obtain ⟨-, o, ho, -, rfl⟩ := fetch_eq_ok.mp hi
  obtain ⟨hn, -, hmodes, -⟩ := decodeOpcode_eq_ok.mp ho
  obtain ⟨hk, rfl⟩ := build_params_eq_some.mp hp
  rw [Rule.digit_toInt hn]
  exact congrArg _ (digit_mode_of_modesOf (modesOf_eq_some.mpr hmodes) (mem_paramIndices.mpr ⟨k, hk, rfl⟩)).symm

theorem view_operandAddress :
    Rule.operandAddress (Rule.view s) (s.mem.get s.pc.toNat).toInt (k + 1) = (namedAddress p s).map BitVec.toInt := by
  rw [Rule.operandAddress, view_raw hi hp, digit_opcodeWord hi hp]
  cases hm : p.mode with
  | position => simp [Mode.digit, namedAddress, effectiveAddress, hm]
  | immediate => simp [Mode.digit, namedAddress, hm]
  | relative => simp [Mode.digit, namedAddress, effectiveAddress, hm, add64_toInt, Rule.view]

theorem view_value {v : Word} (h : rd p s = .ok v) :
    Rule.value (Rule.view s) (s.mem.get s.pc.toNat).toInt (k + 1) = v.toInt := by
  rw [Rule.value, view_operandAddress hi hp]
  obtain ⟨hm, rfl⟩ | ⟨hm, ha, rfl⟩ := rd_eq_ok.mp h
  · simp [namedAddress, hm, view_raw hi hp]
  · simp [namedAddress, hm, view_mem ha]

theorem view_target {d : Word} (h : wa p s = .ok d) :
    Rule.target (Rule.view s) (s.mem.get s.pc.toNat).toInt (k + 1) = d.toInt := by
  obtain ⟨hm, -, rfl⟩ := wa_eq_ok.mp h
  simp [Rule.target, view_operandAddress hi hp, namedAddress, hm]

end FetchedParam

/-! ## The rule's checks are the machine's -/

theorem view_paramAddresses (s : State) (op : Op) :
    addressReport (op.paramIndices.map (Rule.paramAddress (Rule.view s))) = reported (fetchRaws s op.paramIndices) := by
  rw [fetchRaws_eq_mapM, ← List.filterMap_eq_map]
  refine addressReport_filterMap fun k hk => ?_
  have := paramIndices_lt hk
  rw [reported_memRead, ← view_paramAddress s (by omega)]
  rfl

theorem view_operandAddresses {s : State} {o : Opcode} {raws : List Word} (hi : fetch s = .ok (o.build raws)) :
    addressReport (o.op.paramIndices.filterMap (Rule.operandAddress (Rule.view s) (s.mem.get s.pc.toNat).toInt)) =
      reported ((o.build raws).params.mapM (rd · s)) := by
  rw [Opcode.build_params, List.mapM_map]
  refine addressReport_filterMap fun k hk => ?_
  obtain ⟨j, hj, rfl⟩ := mem_paramIndices.mp hk
  rw [view_operandAddress hi (build_params_eq_some.mpr ⟨hj, rfl⟩)]
  exact (reported_rd _ s).symm

/-- `60_exceptions.md` R143: the first check that fails, stage by stage. -/
theorem firstFault_view (s : State) : Rule.firstFault (Rule.view s) = reported (checks s) := by
  simp only [firstFault_eq, checks, fetch, bind_assoc, except_bind_ok]
  refine or_eq_reported_bind (reported_memRead s.pc s).symm fun w hw => ?_
  obtain ⟨hpc, rfl⟩ := memRead_eq_ok.mp hw
  rw [view_opcodeWord hpc]
  refine or_eq_reported_bind (opcodeFault_toInt _) fun o ho => ?_
  rw [decodeWord_eq_ok] at ho
  rw [params_of_decodeOpcode ho]
  refine or_eq_reported_bind (view_paramAddresses s o.op) fun raws hraws => view_operandAddresses ?_
  obtain ⟨hk, rfl⟩ := fetchRaws_eq_ok.mp hraws
  exact fetch_eq_ok.mpr ⟨hpc, o, ho, hk, rfl⟩

/-! ## The rule's execute stage is the machine's -/

theorem view_stored3 {s : State} (hm : s.mem.wf = true) {d : Word} (hd : 0 ≤ d.toInt) (v : Word) :
    Rule.view (stored3 s d v) = { Rule.view s with
      mem := Rule.store (Rule.view s).mem d.toInt v.toInt, pc := Rule.wrap (s.pc.toInt + 4) } := by
  rw [← view_store hm hd, ← wrap64_toInt_eq_wrap]
  rfl

theorem view_stored1 {s : State} (hm : s.mem.wf = true) {d : Word} (hd : 0 ≤ d.toInt) (v : Word) (rest : List Word) :
    Rule.view (stored1 s d v rest) = { Rule.view s with
      mem := Rule.store (Rule.view s).mem d.toInt v.toInt, pc := Rule.wrap (s.pc.toInt + 2),
      inHist := (Rule.view s).inHist ++ [v.toInt], supplied := rest.map BitVec.toInt } := by
  rw [← view_store hm hd, ← wrap64_toInt_eq_wrap]
  simp [Rule.view, stored1, State.inHist, State.outHist]

theorem lessThanCell_toInt (x y : Word) : (lessThanCell x y).toInt = if x.toInt < y.toInt then 1 else 0 := by
  rw [lessThanCell_eq, apply_ite BitVec.toInt]
  rfl

theorem equalToCell_toInt (x y : Word) : (equalToCell x y).toInt = if x.toInt = y.toInt then 1 else 0 := by
  rw [equalToCell_eq, apply_ite BitVec.toInt]
  rfl

/-- Stages 7 and 8 of R76, instruction by instruction. -/
theorem execute_view {s t : State} {i : Instr} (hm : s.mem.wf = true) (hi : fetch s = .ok i) (h : completes i s t) :
    Rule.execute (Rule.view s) = Rule.view t := by
  obtain ⟨hpc, -, hop⟩ := fetch_code hi
  have hop : Rule.opOf (s.mem.get s.pc.toNat).toInt = i.code := hop
  simp only [Rule.execute, view_opcodeWord hpc, hop]
  cases i with
  | add | multiply | lessThan | equalTo =>
    obtain ⟨v1, v2, d, h1, h2, hd, rfl⟩ := h
    rw [view_stored3 hm (nonneg_of_wa hd), view_value hi (k := 0) rfl h1, view_value hi (k := 1) rfl h2,
      view_target hi (k := 2) rfl hd]
    simp only [add64_toInt, mul64_toInt, lessThanCell_toInt, equalToCell_toInt]
    rfl
  | input dst =>
    obtain ⟨d, hd, ⟨hin, rfl⟩ | ⟨v, rest, hin, rfl⟩⟩ := h
    · have hsup : (Rule.view t).supplied = [] := congrArg (List.map BitVec.toInt) hin
      rw [hsup]
      rfl
    · have hsup : (Rule.view s).supplied = v.toInt :: rest.map BitVec.toInt := congrArg (List.map BitVec.toInt) hin
      rw [view_stored1 hm (nonneg_of_wa hd), view_target hi (k := 0) rfl hd, hsup]
      rfl
  | output =>
    obtain ⟨v, hv, rfl⟩ := h
    rw [view_value hi (k := 0) rfl hv]
    simp [Instr.code, Rule.view, State.inHist, State.outHist, wrap64_toInt_eq_wrap]
  | jumpIfTrue | jumpIfFalse =>
    obtain ⟨v1, v2, h1, h2, rfl⟩ := h
    rw [view_value hi (k := 0) rfl h1, view_value hi (k := 1) rfl h2]
    simp only [Rule.view, apply_ite BitVec.toInt, wrap64_toInt_eq_wrap]
    rfl
  | adjustRelativeBase =>
    obtain ⟨v, hv, rfl⟩ := h
    rw [view_value hi (k := 0) rfl hv]
    simp only [Rule.view, wrap64_toInt_eq_wrap]
    rfl
  | stop =>
    cases h
    rfl

/-- Settles O37, by the four ways a step answers (`step_cases`): a fault is the first failed check (`firstFault_view`), and an
instruction that completes is the rule's execute stage (`execute_view`). -/
theorem stepIsTheStepOfTheRule : Obligations.StepIsTheStepOfTheRule := by
  intro s hm
  obtain ⟨t, ht⟩ := step_next s
  refine ⟨t, ht, ?_⟩
  have hstatus : (Rule.view s).status = s.status := rfl
  rw [Rule.step, firstFault_view, hstatus]
  obtain ⟨hs, rfl⟩ | ⟨hs, f, hf, rfl⟩ | ⟨hs, i, hi, hc⟩ | ⟨hs, i, f, hi, hf, rfl⟩ := step_cases ht
  · rw [if_neg hs]
  · rw [if_pos hs, checks_of_fetch_error hf]
    rfl
  · obtain ⟨vs, hvs⟩ := checks_of_completes hi hc
    rw [if_pos hs, hvs]
    exact (execute_view hm hi hc).symm
  · rw [if_pos hs, checks_of_faults hi hf]
    rfl

/-! ## What a step does with the values ready -/

/-- `42_io.md` R95, R100: the step from `s` asks for a value, to be stored at `d`. -/
def State.asks (s : State) (d : Word) : Prop :=
  s.status = .running ∧ ∃ dst, fetch s = .ok (.input dst) ∧ wa dst s = .ok d

section Asks

variable {s : State} {d : Word} (h : s.asks d)
include h

theorem State.asks.withInputs (inputs : List Word) : State.asks { s with inputs := inputs } d := by
  obtain ⟨hs, dst, hi, hd⟩ := h
  exact ⟨hs, dst, (fetch_withInputs s inputs).trans hi, hd⟩

theorem State.asks.step_of_nil (hin : s.inputs = []) : step s = .next s := by
  obtain ⟨hs, dst, hi, hd⟩ := h
  exact (step_of_fetch_ok hs hi).trans (exec_of_completes ⟨d, hd, .inl ⟨hin, rfl⟩⟩)

theorem State.asks.step_of_cons {v : Word} {rest : List Word} (hin : s.inputs = v :: rest) :
    step s = .next (stored1 s d v rest) := by
  obtain ⟨hs, dst, hi, hd⟩ := h
  exact (step_of_fetch_ok hs hi).trans (exec_of_completes ⟨d, hd, .inr ⟨v, rest, hin, rfl⟩⟩)

theorem State.asks.inputs_ne_nil (hp : s.performs = true) : s.inputs ≠ [] := by
  intro hin
  obtain ⟨-, dst, hi, hd⟩ := h
  have hw := waits_iff.mpr ⟨hin, dst, d, hi, hd⟩
  simp [(performs_iff.mp hp).2] at hw

end Asks

theorem completes_withInputs {i : Instr} {s t : State} (hi : ∀ dst, i ≠ .input dst) (h : completes i s t)
    (inputs : List Word) : completes i { s with inputs := inputs } { t with inputs := inputs } := by
  cases i with
  | add | multiply | lessThan | equalTo =>
    obtain ⟨v1, v2, d, h1, h2, hd, rfl⟩ := h
    exact ⟨v1, v2, d, h1, h2, hd, rfl⟩
  | input dst => exact absurd rfl (hi dst)
  | output | adjustRelativeBase =>
    obtain ⟨v, hv, rfl⟩ := h
    exact ⟨v, hv, rfl⟩
  | jumpIfTrue | jumpIfFalse =>
    obtain ⟨v1, v2, h1, h2, rfl⟩ := h
    exact ⟨v1, v2, h1, h2, rfl⟩
  | stop =>
    cases h
    rfl

/-- `42_io.md` R102: a step that asks for no value is the same whatever the environment has ready. -/
theorem step_withInputs {s t : State} (h : step s = .next t) (hask : ∀ d, ¬ s.asks d) (inputs : List Word) :
    step { s with inputs := inputs } = .next { t with inputs := inputs } := by
  have hfetch := fetch_withInputs s inputs
  obtain ⟨hs, rfl⟩ | ⟨hs, f, hf, rfl⟩ | ⟨hs, i, hi, hc⟩ | ⟨hs, i, f, hi, hf, rfl⟩ := step_cases h
  · exact step_of_not_running hs
  · exact step_of_fetch_error (t := { s with inputs := inputs }) hs (hfetch.trans hf)
  · have hne : ∀ dst, i ≠ .input dst := by
      rintro dst rfl
      obtain ⟨d, hd, -⟩ := hc
      exact hask d ⟨hs, dst, hi, hd⟩
    rw [step_of_fetch_ok (t := { s with inputs := inputs }) hs (hfetch.trans hi)]
    exact exec_of_completes (completes_withInputs hne hc inputs)
  · rw [step_of_fetch_ok (t := { s with inputs := inputs }) hs (hfetch.trans hi)]
    exact exec_of_faults (faults_withInputs.mpr hf)

theorem step_inputs_of_not_asks {s t : State} (h : step s = .next t) (hask : ∀ d, ¬ s.asks d) : t.inputs = s.inputs := by
  have h' : step s = .next { t with inputs := s.inputs } := step_withInputs h hask s.inputs
  rw [h] at h'
  have ht : t = { t with inputs := s.inputs } := Host.Outcome.next.inj h'
  rw [ht]

/-! ## The history only grows -/

theorem Effect.io_prefix {i : Instr} {s t : State} (h : Effect i s t) : s.io <+: t.io := by
  cases h with
  | takeInput | emit => exact List.prefix_append _ _
  | store | hold | jump | adjust | stop => exact List.prefix_rfl

theorem step_io_prefix {s t : State} (h : step s = .next t) : s.io <+: t.io := by
  obtain ⟨-, rfl⟩ | ⟨-, f, -, rfl⟩ | ⟨-, i, -, hc⟩ | ⟨-, i, f, -, -, rfl⟩ := step_cases h
  · exact List.prefix_rfl
  · exact List.prefix_rfl
  · exact (effect_of_completes hc).io_prefix
  · exact List.prefix_rfl

theorem run_inHist_prefix {n : Nat} {s t : State} (h : Sys2Proof.core.run n s = .next t) : s.inHist <+: t.inHist := by
  obtain ⟨l, hl⟩ : s.io <+: t.io :=
    run_induction (P := fun u => s.io <+: u.io) (fun u v hu huv => hu.trans (step_io_prefix huv)) n List.prefix_rfl h
  exact ⟨inputEvents l, by rw [State.inHist, State.inHist, ← hl, inputEvents_append]⟩

theorem stored1_inHist (s : State) (d v : Word) (rest : List Word) :
    (stored1 s d v rest).inHist = s.inHist ++ [v] := by
  simp [State.inHist, stored1]

/-! ## Runs that receive the same values -/

section SameButInputs

variable {s₁ s₂ : State} (h : s₁.sameButInputs s₂)
include h

theorem State.sameButInputs.asks {d : Word} (hd : s₁.asks d) : s₂.asks d := by
  rw [sameButInputs_iff.mp h]
  exact hd.withInputs _

theorem State.sameButInputs.stored1 (d v : Word) (rest₁ rest₂ : List Word) :
    (stored1 s₁ d v rest₁).sameButInputs (stored1 s₂ d v rest₂) := by
  rw [sameButInputs_iff.mp h]
  rfl

theorem State.sameButInputs.step_of_not_asks {t₁ t₂ : State} (hask : ∀ d, ¬ s₁.asks d) (h₁ : step s₁ = .next t₁)
    (h₂ : step s₂ = .next t₂) : t₁.sameButInputs t₂ := by
  rw [sameButInputs_iff.mp h, step_withInputs h₁ hask] at h₂
  cases h₂
  rfl

/-- Where one of two environments has no value ready, the run that waits never receives what the other one has. -/
theorem State.sameButInputs.inHist_ne {d v : Word} {rest : List Word} (hd : s₁.asks d) (hin₁ : s₁.inputs = [])
    (hin₂ : s₂.inputs = v :: rest) {n : Nat} {t₁ t₂ : State} (h₁ : Sys2Proof.core.run (n + 1) s₁ = .next t₁)
    (h₂ : Sys2Proof.core.run (n + 1) s₂ = .next t₂) : t₁.inHist ≠ t₂.inHist := by
  rw [run_of_step_self (hd.step_of_nil hin₁)] at h₁
  rw [run_succ ((h.asks hd).step_of_cons hin₂)] at h₂
  cases h₁
  have hlen := (run_inHist_prefix h₂).length_le
  intro heq
  simp [stored1_inHist, ← heq, h.inHist] at hlen

end SameButInputs

/-- `40_step_and_operands.md` R81, by induction on the calls: a value that only one run receives, or that the runs receive
differently, would stand in its history to the end. -/
theorem run_sameButInputs {n : Nat} {s₁ s₂ t₁ t₂ : State} (h : s₁.sameButInputs s₂)
    (h₁ : Sys2Proof.core.run n s₁ = .next t₁) (h₂ : Sys2Proof.core.run n s₂ = .next t₂) (hin : t₁.inHist = t₂.inHist) :
    t₁.sameButInputs t₂ := by
  induction n generalizing s₁ s₂ with
  | zero =>
    cases h₁
    cases h₂
    exact h
  | succ n ih =>
    by_cases hask : ∃ d, s₁.asks d
    · obtain ⟨d, hd₁⟩ := hask
      have hd₂ := h.asks hd₁
      cases hin₁ : s₁.inputs with
      | nil =>
        cases hin₂ : s₂.inputs with
        | nil =>
          rw [run_succ (hd₁.step_of_nil hin₁)] at h₁
          rw [run_succ (hd₂.step_of_nil hin₂)] at h₂
          exact ih h h₁ h₂
        | cons v₂ rest₂ => exact absurd hin (h.inHist_ne hd₁ hin₁ hin₂ h₁ h₂)
      | cons v₁ rest₁ =>
        cases hin₂ : s₂.inputs with
        | nil => exact absurd hin.symm (State.sameButInputs.inHist_ne h.symm hd₂ hin₂ hin₁ h₂ h₁)
        | cons v₂ rest₂ =>
          rw [run_succ (hd₁.step_of_cons hin₁)] at h₁
          rw [run_succ (hd₂.step_of_cons hin₂)] at h₂
          have hp₁ := run_inHist_prefix h₁
          have hp₂ := run_inHist_prefix h₂
          rw [stored1_inHist] at hp₁ hp₂
          rw [hin, h.inHist] at hp₁
          obtain rfl : v₁ = v₂ := by
            have := List.prefix_of_prefix_length_le hp₁ hp₂ (by simp)
            simpa using this
          exact ih (h.stored1 d v₁ rest₁ rest₂) h₁ h₂
    · obtain ⟨u₁, hu₁⟩ := step_next s₁
      obtain ⟨u₂, hu₂⟩ := step_next s₂
      rw [run_succ hu₁] at h₁
      rw [run_succ hu₂] at h₂
      exact ih (h.step_of_not_asks (not_exists.mp hask) hu₁ hu₂) h₁ h₂

/-- Settles O48: one step is a run of one, and the outputs are in the history, which the two states share. -/
theorem runsAreDeterminedByImageAndInputs : Obligations.RunsAreDeterminedByImageAndInputs := by
  have hrun (n : Nat) (s₁ s₂ t₁ t₂ : State) (h : s₁.sameButInputs s₂) (h₁ : Sys2Proof.core.run n s₁ = .next t₁)
      (h₂ : Sys2Proof.core.run n s₂ = .next t₂) (hin : t₁.inHist = t₂.inHist) :
      t₁.sameButInputs t₂ ∧ t₁.outHist = t₂.outHist :=
    have ht := run_sameButInputs h h₁ h₂ hin
    ⟨ht, ht.outHist⟩
  refine ⟨fun s₁ s₂ t₁ t₂ h h₁ h₂ => hrun 1 s₁ s₂ t₁ t₂ h ?_ ?_, hrun, fun image in₁ in₂ => rfl⟩
  · rw [run_succ h₁, run_zero]
  · rw [run_succ h₂, run_zero]

/-! ## Values supplied during a run -/

/-- The values a list of moves supplies, in order. -/
def supplies : List Move → List Word
  | [] => []
  | .supply v :: moves => v :: supplies moves
  | .step :: moves => supplies moves

/-- The state with further values ready, after those it has. -/
def State.withMore (more : List Word) (s : State) : State :=
  { s with inputs := s.inputs ++ more }

/-- `42_io.md` R101: a step that is performed is the same when more values stand ready behind those it can take. -/
theorem step_withMore {s t : State} (hp : s.performs = true) (h : step s = .next t) (more : List Word) :
    step (s.withMore more) = .next (t.withMore more) := by
  by_cases hask : ∃ d, s.asks d
  · obtain ⟨d, hd⟩ := hask
    obtain ⟨v, rest, hin⟩ := List.exists_cons_of_ne_nil (hd.inputs_ne_nil hp)
    rw [hd.step_of_cons hin] at h
    cases h
    exact (hd.withInputs _).step_of_cons (rest := rest ++ more) (by simp [hin])
  · have hask := not_exists.mp hask
    rw [State.withMore, State.withMore, step_inputs_of_not_asks h hask]
    exact step_withInputs h hask _

/-- A run in which values are supplied between steps is, step by performed step, the run that has them ready from the
start. -/
theorem run_of_playMoves {moves : List Move} {s t : State} (h : playMoves moves s = .next t) :
    Sys2Proof.core.run (performedSteps moves s) (s.withMore (supplies moves)) = .next t := by
  induction moves generalizing s with
  | nil =>
    rw [playMoves_nil] at h
    cases h
    simp [supplies, State.withMore]
  | cons move moves ih =>
    cases move with
    | supply v => simpa [supplies, State.withMore, supply] using ih h
    | step =>
      obtain ⟨u, hu⟩ := step_next s
      rw [playMoves_step hu] at h
      rw [performedSteps_step hu]
      by_cases hp : s.performs = true
      · rw [if_pos hp, Nat.add_comm, run_succ (step_withMore hp hu _)]
        exact ih h
      · obtain rfl : u = s := by simpa [step_of_not_performs (by simpa using hp)] using hu.symm
        rw [if_neg hp, Nat.zero_add]
        exact ih h

/-- Settles O51: each run is one with its values ready from the start, of as many steps as it performed. -/
theorem runsWithSuppliesAreDetermined : Obligations.RunsWithSuppliesAreDetermined := by
  intro moves₁ moves₂ s₁ s₂ t₁ t₂ h h₁ h₂ hn hin
  have h₂' := run_of_playMoves h₂
  rw [← hn] at h₂'
  have hmore : (s₁.withMore (supplies moves₁)).sameButInputs (s₂.withMore (supplies moves₂)) := h
  have ht := run_sameButInputs hmore (run_of_playMoves h₁) h₂' hin
  exact ⟨ht, ht.outHist⟩

end Sys2Proof.Machine

/-! SUPPORT. The adder and the multiplier over the integers, and the completion of Add and Multiply: the statements of
`41_arithmetic.md`. -/

namespace Sys2Proof.Machine

/-! ## Identities of the adder and the multiplier -/

theorem add64_zero (x : Word) : add64 x 0 = x :=
  (add64_eq x 0).trans (BitVec.add_zero x)

theorem mul64_zero (x : Word) : mul64 x 0 = 0 :=
  (mul64_eq x 0).trans BitVec.mul_zero

theorem mul64_one (x : Word) : mul64 x 1 = x :=
  (mul64_eq x 1).trans (BitVec.mul_one x)

/-- The one value whose negation is out of range is `-2 ^ 63`. -/
theorem mul64_neg_one_toInt {x : Word} (hx : x.toInt ≠ -2 ^ 63) : (mul64 x (-1)).toInt = -x.toInt := by
  have hlo := toInt_ge x
  have hhi := toInt_lt x
  have hprod : x.toInt * (-1 : Word).toInt = -x.toInt := Int.mul_neg_one x.toInt
  rw [mul64, hprod, wrap64_of_range (by omega) (by omega)]

/-- Settles O18: both results are `wrap64` of the exact one (`add64_toInt`, `mul64_toInt`), which is exact in range
(`wrap64_of_range`). -/
theorem addAndMultiplyWrap : Obligations.AddAndMultiplyWrap := by
  refine ⟨fun x y => ⟨add64_toInt x y, mul64_toInt x y⟩, fun x y => wrap64_of_range, fun x y => wrap64_of_range,
    fun x => ⟨add64_zero x, mul64_zero x, mul64_one x, mul64_neg_one_toInt⟩, ?_, ?_, ?_⟩ <;> decide

/-! ## Completion of Add and Multiply -/

/-- Settles O20: with its operands resolved, Add completes with `stored3` of the sum. -/
theorem addWritesTheSum : Obligations.AddWritesTheSum := by
  intro a b dst s v1 v2 d h1 h2 hd
  exact exec_of_completes (i := .add a b dst) ⟨v1, v2, d, h1, h2, hd, rfl⟩

/-- Settles O21: with its operands resolved, Multiply completes with `stored3` of the product. -/
theorem multiplyWritesTheProduct : Obligations.MultiplyWritesTheProduct := by
  intro a b dst s v1 v2 d h1 h2 hd
  exact exec_of_completes (i := .multiply a b dst) ⟨v1, v2, d, h1, h2, hd, rfl⟩

end Sys2Proof.Machine

/-! SUPPORT. Input and Output, the calls a step makes, and the frame of the instructions that store nothing: the statements of
`42_io.md`. -/

namespace Sys2Proof.Machine

/-! ## The histories after a call -/

theorem stored1_outHist (s : State) (d v : Word) (rest : List Word) : (stored1 s d v rest).outHist = s.outHist := by
  simp [State.outHist, stored1]

/-- `42_io.md` R96: the next state of an Output of `v`. -/
def emitted (s : State) (v : Word) : State :=
  { s with pc := wrap64 (s.pc.toInt + 2), io := s.io ++ [.output v] }

theorem emitted_inHist (s : State) (v : Word) : (emitted s v).inHist = s.inHist := by
  simp [State.inHist, emitted]

theorem emitted_outHist (s : State) (v : Word) : (emitted s v).outHist = s.outHist ++ [v] := by
  simp [State.outHist, emitted]

/-! ## Completion of Input and Output -/

/-- Settles O22: with its destination resolved and a value ready, Input completes with `stored1`. -/
theorem inputStoresTheNextValue : Obligations.InputStoresTheNextValue := by
  intro dst s d v rest hd hin
  exact ⟨stored1 s d v rest, exec_of_completes (i := .input dst) ⟨d, hd, .inr ⟨v, rest, hin, rfl⟩⟩,
    stored1_inHist s d v rest, stored1_outHist s d v rest, rfl⟩

/-- Settles O24: with its operand resolved, Output completes with `emitted`. -/
theorem outputEmitsTheValue : Obligations.OutputEmitsTheValue := by
  intro a s v hv
  exact ⟨emitted s v, exec_of_completes (i := .output a) ⟨v, hv, rfl⟩, emitted_outHist s v, emitted_inHist s v, rfl⟩

/-- Settles O23: the step asks for a value, so it is held without one, and takes the only one that is ready once `v` is
supplied. -/
theorem inputHoldsUntilAValueIsSupplied : Obligations.InputHoldsUntilAValueIsSupplied := by
  intro dst s d hs hi hd hin
  have hask : s.asks d := ⟨hs, dst, hi, hd⟩
  refine ⟨run_of_step_self (hask.step_of_nil hin), fun v => ?_⟩
  have hsupplied : (supply v s).asks d := hask.withInputs (s.inputs ++ [v])
  rw [hsupplied.step_of_cons (v := v) (rest := []) (by simp [hin])]
  simp [stored1, hin]

/-! ## The calls of a step -/

/-- `42_io.md` R101, R102: a completed instruction makes no call, or it is an Input that takes the next value, or an
Output. -/
theorem completes_call_cases {i : Instr} {s t : State} (h : completes i s t) :
    (t.io = s.io ∧ t.inputs = s.inputs) ∨
    (i.code = 3 ∧ ∃ d v rest, s.inputs = v :: rest ∧ t = stored1 s d v rest) ∨
    (i.code = 4 ∧ ∃ v, t = emitted s v) := by
  cases i with
  | add | multiply | lessThan | equalTo =>
    obtain ⟨v1, v2, d, -, -, -, rfl⟩ := h
    exact .inl ⟨rfl, rfl⟩
  | input =>
    obtain ⟨d, -, ⟨-, rfl⟩ | ⟨v, rest, hin, rfl⟩⟩ := h
    · exact .inl ⟨rfl, rfl⟩
    · exact .inr (.inl ⟨rfl, d, v, rest, hin, rfl⟩)
  | output =>
    obtain ⟨v, -, rfl⟩ := h
    exact .inr (.inr ⟨rfl, v, rfl⟩)
  | jumpIfTrue | jumpIfFalse =>
    obtain ⟨v1, v2, -, -, rfl⟩ := h
    exact .inl ⟨rfl, rfl⟩
  | adjustRelativeBase =>
    obtain ⟨v, -, rfl⟩ := h
    exact .inl ⟨rfl, rfl⟩
  | stop =>
    cases h
    exact .inl ⟨rfl, rfl⟩

/-- Settles O47, by the four ways a step answers (`step_cases`): only an instruction that completes makes a call. -/
theorem stepMakesAtMostOneIoCall : Obligations.StepMakesAtMostOneIoCall := by
  intro s t h
  obtain ⟨-, rfl⟩ | ⟨-, f, -, rfl⟩ | ⟨-, i, hi, hc⟩ | ⟨-, i, f, -, -, rfl⟩ := step_cases h
  · exact .inl ⟨rfl, rfl⟩
  · exact .inl ⟨rfl, rfl⟩
  · obtain ⟨-, -, hop⟩ := fetch_code hi
    obtain hsame | ⟨hcode, d, v, rest, hin, rfl⟩ | ⟨hcode, v, rfl⟩ := completes_call_cases hc
    · exact .inl hsame
    · exact .inr (.inl ⟨v, rfl, hin, stored1_inHist s d v rest, stored1_outHist s d v rest, by simp [hop, hcode]⟩)
    · exact .inr (.inr ⟨v, rfl, rfl, emitted_outHist s v, emitted_inHist s v, by simp [hop, hcode]⟩)
  · exact .inl ⟨rfl, rfl⟩

/-! ## What an instruction that stores nothing can do -/

/-- What an instruction without a write parameter makes of a state: it faults, emits a value, sets `pc`, moves the relative
base, or halts. -/
inductive NonStoreEffect (i : Instr) (s : State) : State → Prop where
  | fault (f : Fault) : NonStoreEffect i s (takeFault f s)
  | emit (a : Param) (v : Word) (hi : i = .output a) : NonStoreEffect i s (emitted s v)
  | jump (target : Word) (hi : i ≠ .stop) : NonStoreEffect i s { s with pc := target }
  | adjust (a : Param) (rb : Word) (hi : i = .adjustRelativeBase a) :
      NonStoreEffect i s { s with rb := rb, pc := wrap64 (s.pc.toInt + 2) }
  | stop (hi : i = .stop) : NonStoreEffect i s { s with status := .halted }

theorem nonStoreEffect_of_completes {i : Instr} {s t : State} (hi : writeParam? i = none) (h : completes i s t) :
    NonStoreEffect i s t := by
  cases i with
  | output a =>
    obtain ⟨v, -, rfl⟩ := h
    exact .emit a v rfl
  | jumpIfTrue | jumpIfFalse =>
    obtain ⟨v1, v2, -, -, rfl⟩ := h
    exact .jump _ (by simp)
  | adjustRelativeBase a =>
    obtain ⟨v, -, rfl⟩ := h
    exact .adjust a _ rfl
  | stop =>
    cases h
    exact .stop rfl
  | add | multiply | lessThan | equalTo | input => cases hi

theorem nonStoreEffect_of_exec {i : Instr} {s t : State} (hi : writeParam? i = none) (h : exec i s = .next t) :
    NonStoreEffect i s t := by
  obtain hc | ⟨f, -, rfl⟩ := exec_eq_next.mp h
  · exact nonStoreEffect_of_completes hi hc
  · exact .fault f

section NonStoreEffect

variable {i : Instr} {s t : State} (h : NonStoreEffect i s t)
include h

theorem NonStoreEffect.mem : t.mem = s.mem := by
  cases h with
  | fault | emit | jump | adjust | stop => rfl

theorem NonStoreEffect.inputs : t.inputs = s.inputs := by
  cases h with
  | fault | emit | jump | adjust | stop => rfl

theorem NonStoreEffect.inHist : t.inHist = s.inHist := by
  cases h with
  | emit _ v => exact emitted_inHist s v
  | fault | jump | adjust | stop => rfl

theorem NonStoreEffect.io (hi : ∀ a, i ≠ .output a) : t.io = s.io := by
  cases h with
  | emit a _ hi' => exact absurd hi' (hi a)
  | fault | jump | adjust | stop => rfl

theorem NonStoreEffect.rb (hi : ∀ a, i ≠ .adjustRelativeBase a) : t.rb = s.rb := by
  cases h with
  | adjust a _ hi' => exact absurd hi' (hi a)
  | fault | emit | jump | stop => rfl

theorem NonStoreEffect.fault_registers (hf : t.status ≠ .faulted) : t.fcause = s.fcause ∧ t.finfo = s.finfo := by
  cases h with
  | fault => exact absurd rfl hf
  | emit | jump | adjust | stop => exact ⟨rfl, rfl⟩

theorem NonStoreEffect.status (hf : t.status ≠ .faulted) (hi : i ≠ .stop) : t.status = s.status := by
  cases h with
  | fault => exact absurd rfl hf
  | stop hi' => exact absurd hi' hi
  | emit | jump | adjust => rfl

theorem NonStoreEffect.pc_of_stop (hi : i = .stop) : t.pc = s.pc := by
  subst hi
  cases h with
  | fault | stop => rfl
  | jump _ hi => exact absurd rfl hi
  | emit _ _ hi | adjust _ _ hi => cases hi

end NonStoreEffect

/-- Settles O33, from the five things an instruction that stores nothing can do (`NonStoreEffect`). -/
theorem nonStoringInstructionsLeaveMemory : Obligations.NonStoringInstructionsLeaveMemory := by
  intro i s t hi hexec
  have hnone : writeParam? i = none := by
    obtain ⟨a, rfl⟩ | ⟨c, g, rfl | rfl⟩ | ⟨a, rfl⟩ | rfl := hi <;> rfl
  have h := nonStoreEffect_of_exec hnone hexec
  exact ⟨fun a => by rw [h.mem], h.mem, h.inputs, h.inHist, h.io, h.rb, h.fault_registers, h.status, h.pc_of_stop⟩

end Sys2Proof.Machine

/-! SUPPORT. The two jumps, and the sequential order of every other instruction: the statements of `43_jumps.md`. -/

namespace Sys2Proof.Machine

/-! ## Completion of the jumps -/

/-- Settles O25: with its operands resolved, JumpIfTrue completes. -/
theorem jumpIfTrueSetsPc : Obligations.JumpIfTrueSetsPc := by
  intro cond target s v1 v2 h1 h2
  exact exec_of_completes (i := .jumpIfTrue cond target) ⟨v1, v2, h1, h2, rfl⟩

/-- Settles O26: with its operands resolved, JumpIfFalse completes. -/
theorem jumpIfFalseSetsPc : Obligations.JumpIfFalseSetsPc := by
  intro cond target s v1 v2 h1 h2
  exact exec_of_completes (i := .jumpIfFalse cond target) ⟨v1, v2, h1, h2, rfl⟩

/-! ## The order of the instructions -/

/-- `40_step_and_operands.md` R79: an instruction that completes leaves `pc` (a hold, or Stop), or is a jump, or sets `pc` to
the address after its last parameter. -/
theorem completes_pc_cases {i : Instr} {s t : State} (h : completes i s t) :
    t.pc = s.pc ∨ (i.code = 5 ∨ i.code = 6) ∨ t.pc = wrap64 (s.pc.toInt + 1 + i.params.length) := by
  simp only [add_assoc]
  cases i with
  | add | multiply | lessThan | equalTo =>
    obtain ⟨v1, v2, d, -, -, -, rfl⟩ := h
    exact .inr (.inr rfl)
  | input =>
    obtain ⟨d, -, ⟨-, rfl⟩ | ⟨v, rest, -, rfl⟩⟩ := h
    · exact .inl rfl
    · exact .inr (.inr rfl)
  | output | adjustRelativeBase =>
    obtain ⟨v, -, rfl⟩ := h
    exact .inr (.inr rfl)
  | jumpIfTrue => exact .inr (.inl (.inl rfl))
  | jumpIfFalse => exact .inr (.inl (.inr rfl))
  | stop =>
    cases h
    exact .inl rfl

/-- `30_encoding.md` R56: an instruction has the parameters the rule gives its operation code. -/
theorem ruleNparams_instr_code (i : Instr) : Rule.nparams i.code = i.params.length := by
  rw [← Instr.op_code, Rule.nparams_code, Instr.op_nparams]

/-- Settles O44, by the four ways a step answers (`step_cases`): only an instruction that completes moves `pc`, and the cell
at `pc` holds its code (`fetch_code`). -/
theorem onlyJumpsLeaveSequentialOrder : Obligations.OnlyJumpsLeaveSequentialOrder := by
  intro s t _ hstep hmove
  obtain ⟨-, rfl⟩ | ⟨-, f, -, rfl⟩ | ⟨-, i, hi, hc⟩ | ⟨-, i, f, -, -, rfl⟩ := step_cases hstep
  · exact absurd rfl hmove
  · exact absurd rfl hmove
  · obtain ⟨-, -, hop⟩ := fetch_code hi
    rw [hop]
    obtain hstay | hjump | hseq := completes_pc_cases hc
    · exact absurd hstay hmove
    · exact .inl (by exact_mod_cast hjump)
    · right
      rw [hseq, wrap64_toInt_eq_wrap, ruleNparams_instr_code]
  · exact absurd rfl hmove

/-! ## A jump to a negative target -/

/-- `60_exceptions.md` R143: a negative `pc` is the first thing a fetch checks. -/
theorem fetch_of_neg_pc {s : State} (h : s.pc.toInt < 0) : fetch s = .error (.negativeAddress s.pc) :=
  fetch_eq_error.mpr (.inl ⟨h, rfl⟩)

/-- Settles O45: the jump completes whatever its target (`jumpIfTrueSetsPc`, `jumpIfFalseSetsPc`), and the fetch that follows
faults (`fetch_of_neg_pc`). -/
theorem negativeJumpTargetFaultsAtTheNextFetch : Obligations.NegativeJumpTargetFaultsAtTheNextFetch := by
  intro cond target s v1 v2 hrun h1 h2 hneg
  refine ⟨fun hv => ?_, fun hv => ?_, ?_⟩
  · have hv : v1.toInt ≠ 0 := fun h => hv (BitVec.eq_of_toInt_eq h)
    rw [jumpIfTrueSetsPc cond target s v1 v2 h1 h2, if_pos hv]
  · have hv : v1.toInt = 0 := congrArg BitVec.toInt hv
    rw [jumpIfFalseSetsPc cond target s v1 v2 h1 h2, if_pos hv]
  · exact step_of_fetch_error (t := { s with pc := v2 }) hrun (fetch_of_neg_pc hneg)

end Sys2Proof.Machine

/-! SUPPORT. LessThan and EqualTo: the statements of `44_compare.md`. -/

namespace Sys2Proof.Machine

/-- Settles O27: with its operands resolved, LessThan completes with `stored3` of the signed comparison (`lessThanCell_eq`). -/
theorem lessThanWritesOneOrZero : Obligations.LessThanWritesOneOrZero := by
  intro a b dst s v1 v2 d h1 h2 hd
  rw [← lessThanCell_eq]
  exact exec_of_completes (i := .lessThan a b dst) ⟨v1, v2, d, h1, h2, hd, rfl⟩

/-- Settles O28: with its operands resolved, EqualTo completes with `stored3` of the equality of all 64 bits, which is that
of the integers (`equalToCell_eq`). -/
theorem equalToWritesOneOrZero : Obligations.EqualToWritesOneOrZero := by
  intro a b dst s v1 v2 d h1 h2 hd
  rw [← equalToCell_eq]
  exact exec_of_completes (i := .equalTo a b dst) ⟨v1, v2, d, h1, h2, hd, rfl⟩

end Sys2Proof.Machine

/-! SUPPORT. AdjustRelativeBase and Stop: the statements of `45_relbase_stop.md`. -/

namespace Sys2Proof.Machine

/-- Settles O29: with its operand resolved, AdjustRelativeBase completes. -/
theorem adjustRelativeBaseAddsToRb : Obligations.AdjustRelativeBaseAddsToRb := by
  intro a s v hv
  exact exec_of_completes (i := .adjustRelativeBase a) ⟨v, hv, rfl⟩

/-- `40_step_and_operands.md` R82, `45_relbase_stop.md` R116: a machine that Stop has halted stays as it is. -/
theorem run_of_halted (s : State) (n : Nat) :
    Sys2Proof.core.run n { s with status := .halted } = .next { s with status := .halted } :=
  run_of_step_self (step_of_not_running (by simp)) n

/-- Settles O30: Stop resolves no operand, so it always completes; a step at its word runs it (`step_of_isStopWord`), and the
steps after it answer the halted state (`run_of_halted`). -/
theorem stopHalts : Obligations.StopHalts := by
  refine ⟨fun s => exec_of_completes (i := .stop) rfl, fun s n hrun hpc hstop => ?_⟩
  rw [run_succ (step_of_isStopWord hrun hpc hstop), run_of_halted]

end Sys2Proof.Machine

/-! SUPPORT. Construction and what the host reads: the statements of `46_host_interface.md`. -/

namespace Sys2Proof.Machine

/-! ## Construction -/

/-- `46_host_interface.md` R120, R121: Memory is canonical (`construct_mem_wf`) and no fault is recorded, whatever the
environment has ready. -/
theorem construct_inv {image : List Word} (h : image.length < Config.addrLimit) (inputs : List Word) :
    State.Inv { construct image with inputs := inputs } :=
  .of_running (construct_mem_wf h) (construct_status image) ⟨construct_fcause image, construct_finfo image⟩

theorem reset_eq_construct_nil : State.reset = construct [] := rfl

/-- Settles O2: `construct_inv`, of which `State.reset` is the case of the empty image with no value ready. -/
theorem constructionMeetsTheInvariant : Obligations.ConstructionMeetsTheInvariant := by
  refine ⟨reset_eq_construct_nil, ?_, fun image inputs himage => construct_inv himage inputs⟩
  have hlen : ([] : List Word).length < Config.addrLimit := by decide
  exact reset_eq_construct_nil ▸ construct_inv hlen []

/-! ## What the host reads -/

/-- `10_state.md` R17: a run that is not Running has ended in one of two ways. -/
theorem Status.ne_running_iff {st : Status} : st ≠ .running ↔ st = .halted ∨ st = .faulted := by
  cases st <;> decide

theorem inspect_of_running {s : State} (h : s.status = .running) (a : Nat) : inspect a s = none := by
  rw [inspect, h]

theorem inspect_of_not_running {s : State} (h : s.status ≠ .running) {a : Nat} (ha : a < Config.addrLimit) :
    inspect a s = some (s.mem.get a) := by
  obtain h | h := Status.ne_running_iff.mp h <;> simp [inspect, h, ha]

theorem inspectRegister_of_running {s : State} (h : s.status = .running) (i : Fin 2) : inspectRegister i s = none := by
  rw [inspectRegister, h]

theorem inspectRegister_of_not_running {s : State} (h : s.status ≠ .running) (i : Fin 2) :
    inspectRegister i s = some (s.x i) := by
  obtain h | h := Status.ne_running_iff.mp h <;> rw [inspectRegister, h]

theorem readStatusOutsideRun_of_running {s : State} (h : s.status = .running) : readStatusOutsideRun s = none := by
  rw [readStatusOutsideRun, h]

theorem readStatusOutsideRun_of_not_running {s : State} (h : s.status ≠ .running) :
    readStatusOutsideRun s = some (readStatus s) := by
  obtain h | h := Status.ne_running_iff.mp h <;> rw [readStatusOutsideRun, h]

/-- `10_state.md` R17: the STATUS port shows the code of the run state. -/
theorem readStatus_status {s : State} {st : Status} (h : s.status = st) : (readStatus s).status = st.code :=
  congrArg Status.code h

/-- Settles O50: the reads of the host by whether the machine is Running, and the STATUS port in each run state. -/
theorem hostInspectsOnlyAfterTheRun : Obligations.HostInspectsOnlyAfterTheRun := by
  intro s a i
  refine ⟨fun hrun => ?_, fun hend => ?_, readStatus_status, readStatus_status, rfl, rfl,
    readStatusOutsideRun_of_running,
    fun hend => readStatusOutsideRun_of_not_running (Status.ne_running_iff.mpr hend)⟩
  · exact ⟨inspect_of_running hrun a, inspectRegister_of_running hrun i, readStatus_status hrun⟩
  · have hnr : s.status ≠ .running := Status.ne_running_iff.mpr hend
    exact ⟨inspect_of_not_running hnr, inspectRegister_of_not_running hnr 0, inspectRegister_of_not_running hnr 1⟩

end Sys2Proof.Machine

/-! SUPPORT. Which steps fault and what they record: the statements of `60_exceptions.md`. -/

namespace Sys2Proof.Machine

/-! ## Fault entry -/

/-- Settles O39: `raise` writes the code and the value of its fault (`Fault.code`, `Fault.info`). -/
theorem faultEntryRecordsCodeAndValue : Obligations.FaultEntryRecordsCodeAndValue :=
  fun _ _ => ⟨rfl, rfl, rfl, rfl⟩

/-! ## The checks decide whether a step faults -/

theorem status_ne_faulted_of_completes {i : Instr} {s t : State} (hs : s.status = .running) (h : completes i s t) :
    t.status ≠ .faulted := by
  obtain ⟨-, rfl⟩ | ⟨hst, -⟩ := (effect_of_completes h).status_cases
  · simp
  · simp [hst, hs]

/-- A step from Running faults with the fault of its checks, or passes them and does not end in Faulted. -/
theorem step_checks_cases {s t : State} (hs : s.status = .running) (h : step s = .next t) :
    (∃ f, checks s = .error f ∧ t = takeFault f s) ∨ ((∃ vs, checks s = .ok vs) ∧ t.status ≠ .faulted) := by
  obtain ⟨hs', -⟩ | ⟨-, f, hf, ht⟩ | ⟨-, i, hi, hc⟩ | ⟨-, i, f, hi, hf, ht⟩ := step_cases h
  · exact absurd hs hs'
  · exact .inl ⟨f, checks_of_fetch_error hf, ht⟩
  · exact .inr ⟨checks_of_completes hi hc, status_ne_faulted_of_completes hs hc⟩
  · exact .inl ⟨f, checks_of_faults hi hf, ht⟩

theorem step_of_checks_error {s : State} {f : Fault} (hs : s.status = .running) (hf : checks s = .error f) :
    step s = .next (takeFault f s) := by
  obtain ⟨t, ht⟩ := step_next s
  obtain ⟨f', hf', rfl⟩ | ⟨⟨vs, hvs⟩, -⟩ := step_checks_cases hs ht
  · cases hf.symm.trans hf'
    exact ht
  · cases hf.symm.trans hvs

/-- `60_exceptions.md` R140: the reported code and value are those that fault entry writes. -/
theorem takeFault_eq_of_reported {α : Type} {f : Fault} {code : Nat} {info : Int}
    (h : reported (.error f : Except Fault α) = some (code, info)) (s : State) :
    takeFault f s = { s with status := .faulted, fcause := BitVec.ofNat 3 code, finfo := BitVec.ofInt 64 info } := by
  cases h
  simp [takeFault]

/-- Settles O38: the rule's first failed check is the machine's (`firstFault_view`), and the checks decide whether the step
faults (`step_of_checks_error`, `step_checks_cases`). -/
theorem firstFailedCheckIsReported : Obligations.FirstFailedCheckIsReported := by
  intro s hs
  rw [firstFault_view]
  refine ⟨fun code info hfirst => ?_, fun hnone t ht => ?_⟩
  · cases hc : checks s with
    | ok vs => simp [hc] at hfirst
    | error f =>
      rw [hc] at hfirst
      rw [step_of_checks_error hs hc, takeFault_eq_of_reported hfirst]
  · obtain ⟨f, hf, -⟩ | ⟨-, hst⟩ := step_checks_cases hs ht
    · simp [hf] at hnone
    · exact hst

/-! ## No check reads the values ready -/

theorem checks_withInputs (s : State) (inputs : List Word) : checks { s with inputs := inputs } = checks s := by
  simp only [checks, fetch_withInputs, rd_withInputs]

/-- Settles O41: the step that faulted has failed its checks, and they fail alike for any values ready
(`checks_withInputs`). -/
theorem faultsDoNotDependOnTheInput : Obligations.FaultsDoNotDependOnTheInput := by
  intro s t inputs hs h ht
  obtain ⟨f, hf, rfl⟩ | ⟨-, hst⟩ := step_checks_cases hs h
  · exact step_of_checks_error hs ((checks_withInputs s inputs).trans hf)
  · exact absurd ht hst

end Sys2Proof.Machine

/-! SUPPORT. How a run ends, and the outcome of every run: the statement of `70_reset_and_hazards.md`, and the one about the
model's choice of outcome (logs 1, 2, 4). -/

namespace Sys2Proof.Machine

/-- `70_reset_and_hazards.md` R171, `45_relbase_stop.md` R116: a step from Running that ends in Halted has executed a Stop,
since neither a fault nor another instruction gives that STATUS (`Effect.status_cases`). -/
theorem stop_of_step_halted {s t : State} (hrun : s.status = .running) (h : step s = .next t) (ht : t.status = .halted) :
    (legalAddress s.pc ∧ isStopWord (s.mem.get s.pc.toNat)) ∧ t = { s with status := .halted } := by
  obtain ⟨hs, -⟩ | ⟨-, f, -, rfl⟩ | ⟨-, i, hi, hc⟩ | ⟨-, i, f, -, -, rfl⟩ := step_cases h
  · exact absurd hrun hs
  · simp at ht
  · obtain ⟨hcode, rfl⟩ | ⟨hst, -⟩ := (effect_of_completes hc).status_cases
    · obtain ⟨hp, hw, hop⟩ := fetch_code hi
      exact ⟨⟨hp, hw, by simp [hop, hcode]⟩, rfl⟩
    · simp [hst, hrun] at ht
  · simp at ht

/-- Settles O43: only a Stop halts (`stop_of_step_halted`), and a step at the word of a Stop does (`step_of_isStopWord`). -/
theorem haltedExactlyByStop : Obligations.HaltedExactlyByStop := by
  intro s t hrun h
  refine ⟨⟨fun ht => (stop_of_step_halted hrun h ht).1, fun ⟨hp, hw⟩ => ?_⟩, fun ht => (stop_of_step_halted hrun h ht).2⟩
  cases h.symm.trans (step_of_isStopWord hrun hp hw)
  rfl

/-- A run of any length answers a next state, since each of its steps does (`step_next`). -/
theorem run_next (n : Nat) (s : State) : ∃ t, Sys2Proof.core.run n s = .next t := by
  induction n generalizing s with
  | zero => exact ⟨s, run_zero s⟩
  | succ n ih =>
    obtain ⟨u, hu⟩ := step_next s
    rw [run_succ hu]
    exact ih u

/-- Settles O36: no instruction (`exec_next`) and no run (`run_next`) ends in a fault or a refusal of the host's. -/
theorem everyStepAnswersANextState : Obligations.EveryStepAnswersANextState :=
  ⟨exec_next, run_next⟩

end Sys2Proof.Machine
